-- ==== Sys2Proof/Word.lean ====
section
/-! DEFINITION. The two words of LZSS-CORE: the byte of IN, OUT and HIST (rule R58) and the 32-bit word of the
register space REG (rules R8, R35). Every quantity is unsigned (rule R9). -/

namespace Sys2Proof

/-- One byte of a stream or a buffer. -/
abbrev Byte := BitVec 8

/-- One register of REG. -/
abbrev Word := BitVec 32

end Sys2Proof
end

