-- ==== Sys2Proof/Config.lean ====
section
/-! DEFINITION. What is fixed for one LZSS-CORE: the source's constants (rules R5, R6), the capacities that the spec
leaves as parameters (rule R7), and the free values that stand for contents the spec leaves unspecified
(93_implementation_defined.md C1, C2). -/

namespace Sys2Proof

/-- WINDOW_SIZE, rule R5. -/
def W : Nat := 4096

/-- LOOKAHEAD_SIZE, rule R5. -/
def LA_MAX : Nat := 18

/-- The shortest match that ENCODE emits, rule R5. -/
def MIN_MATCH : Nat := 3

/-- The capacities of the two buffers (rule R7, decision D15). DESIGN CHOICE (log 1): they travel with the state,
because a step takes nothing but a state; no step changes them. -/
structure Config where
  inCap : Nat
  outCap : Nat
deriving DecidableEq, Repr

/-- Rule R7: each capacity lies in 1..2^32 - 1. -/
abbrev Config.wf (c : Config) : Prop :=
  1 ≤ c.inCap ∧ c.inCap < 2 ^ 32 ∧ 1 ≤ c.outCap ∧ c.outCap < 2 ^ 32

/-- The largest capacities of rule R7: DESIGN CHOICE (log 1) for the machine that State.reset describes. -/
def Config.largest : Config := { inCap := 2 ^ 32 - 1, outCap := 2 ^ 32 - 1 }

/-- A FREE VALUE (log 4): what IN holds at an index that nothing has written since the hardware reset of the given
number (rule R240, "IN contents: unspecified"; 93_implementation_defined.md C2). -/
opaque Config.powerOnInByte : Nat → Nat → Byte

/-- A FREE VALUE (log 5): the n-th unspecified OUT byte that a host read draws (rule R52; 93_implementation_defined.md
C1). -/
opaque Config.unspecifiedOutByte : Nat → Byte

end Sys2Proof
end

