-- ==== Sys2Proof/Syntax.lean ====
section
/-! DEFINITION. The instructions of LZSS-CORE, one constructor per row of spec/opcode_table.json: the two tokens of the
compressed stream (rules R72, R73) and the three commands that a CTRL write gives (rule R81). -/

namespace Sys2Proof

/-- The five rows of the opcode table. A command keeps the CTRL bits that the core ignores (rule R33), so that an
instruction and its encoding determine each other. -/
inductive Instr where
  /-- LIT v (rule R72): a literal byte. -/
  | lit (v : Byte)
  /-- MATCH off, len (rule R73): a copy of len bytes from off bytes back. -/
  | matchTok (off : BitVec 16) (len : Byte)
  /-- START_ENCODE (rule R81): CTRL bits 1:0 are 01, bits 31:2 are ignored. -/
  | startEncode (ignored : BitVec 30)
  /-- START_DECODE (rule R81): CTRL bits 1:0 are 11, bits 31:2 are ignored. -/
  | startDecode (ignored : BitVec 30)
  /-- CTRL_NOP (rule R81): CTRL bit 0 is 0, bits 31:1 are ignored. -/
  | ctrlNop (ignored : BitVec 31)
deriving DecidableEq, Repr

end Sys2Proof
end

