-- ==== Sys2Proof/WellFormed.lean ====
section
/-! DEFINITION. Which instructions are inside the ranges of the token data model (rules R6, R129): the tokens that
ENCODE emits. Every other token still has an encoding and a meaning (rule R78); every command is well formed, whatever
its ignored bits hold (rule R81). -/

namespace Sys2Proof

/-- 1 ≤ off ≤ W, the range of a MATCH offset (rule R6). -/
def offsetInWindow (off : BitVec 16) : Bool := 1 ≤ off.toNat && off.toNat ≤ W

/-- MIN_MATCH ≤ len ≤ LA_MAX, the range of a length that ENCODE emits (rule R6). -/
def lengthInRange (len : Byte) : Bool := MIN_MATCH ≤ len.toNat && len.toNat ≤ LA_MAX

/-- The tokens of rule R129 and all commands. -/
def Instr.wellFormed : Instr → Bool
  | .lit _ => true
  | .matchTok off len => offsetInWindow off && lengthInRange len
  | .startEncode _ => true
  | .startDecode _ => true
  | .ctrlNop _ => true

end Sys2Proof
end

