-- ==== Sys2Proof/Decode.lean ====
section
/-! DEFINITION. Decoding of tokens from stream bytes (rules R71 to R79) and of commands from CTRL values (rule R81),
the encoder from the same tables, and the opcode table's numbering of an instruction's bits (rule R76). -/

namespace Sys2Proof

/-- Why no token can be read, by name (rules R77, R78, R212). -/
inductive DecodeError where
  /-- There is no byte at all. The core never decodes there: the end of the stream is Finish (rule R160). -/
  | endOfStream
  /-- The first byte is 0x02..0xFF (rule R77). -/
  | badDisc
  /-- A LIT without its byte (rule R162). -/
  | truncLit
  /-- A MATCH with fewer than three descriptor bytes (rule R163). -/
  | truncMatch
deriving DecidableEq, Repr

/-- Where an instruction's bits stand: in the token stream, in stream order, or in a value written to CTRL. -/
inductive Encoded where
  | stream (bytes : List Byte)
  | ctrl (value : Word)
deriving DecidableEq, Repr

/-- Rule R74: zext_16(byte1) * 256 + zext_16(byte2), the high byte first. -/
def assembleOffset (hi lo : Byte) : BitVec 16 := hi.setWidth 16 * 256#16 + lo.setWidth 16

/-- Rule R74: off[15:8]. -/
def offsetHigh (off : BitVec 16) : Byte := off.extractLsb' 8 8

/-- Rule R74: off[7:0]. -/
def offsetLow (off : BitVec 16) : Byte := off.extractLsb' 0 8

/-- The token at the head of a stream and the bytes after it (rules R71 to R75, R77, R161): the first byte alone
selects the format and so the length. -/
def decodeToken : List Byte → Except DecodeError (Instr × List Byte)
  | [] => .error .endOfStream
  | disc :: rest =>
    if disc = 0x00#8 then
      match rest with
      | v :: after => .ok (.lit v, after)
      | [] => .error .truncLit
    else if disc = 0x01#8 then
      match rest with
      | hi :: lo :: len :: after => .ok (.matchTok (assembleOffset hi lo) len, after)
      | _ => .error .truncMatch
    else .error .badDisc

/-- The command of a value written to CTRL (rules R33, R81): bit 0 is START, bit 1 is OP, the rest is ignored. -/
def decodeCtrl (v : Word) : Instr :=
  if v.getLsbD 0 then
    if v.getLsbD 1 then .startDecode (v.extractLsb' 2 30) else .startEncode (v.extractLsb' 2 30)
  else .ctrlNop (v.extractLsb' 1 31)

/-- The decoder: total on stream bytes and on CTRL values. A CTRL value leaves no bytes. -/
def decode : Encoded → Except DecodeError (Instr × List Byte)
  | .stream bytes => decodeToken bytes
  | .ctrl v => .ok (decodeCtrl v, [])

/-- The encoder (rules R72, R73, R81). -/
def encode : Instr → Encoded
  | .lit v => .stream [0x00#8, v]
  | .matchTok off len => .stream [0x01#8, offsetHigh off, offsetLow off, len]
  | .startEncode r => .ctrl (r ++ 0b01#2)
  | .startDecode r => .ctrl (r ++ 0b11#2)
  | .ctrlNop r => .ctrl (r ++ 0#1)

/-- Byte j of a table word of n bytes, rule R76: T[8(n-1-j)+7 : 8(n-1-j)]. -/
def tableByte (n w j : Nat) : Byte := BitVec.ofNat 8 (w / 2 ^ (8 * (n - 1 - j)))

/-- Where the bits of a table word stand. A 16-bit row is a LIT. A 32-bit row is a MATCH when T[31:24] is 0x01 and a
CTRL value otherwise: DESIGN CHOICE (log 11), because the table numbers a MATCH and a CTRL value alike. -/
def tableCode (nbits w : Nat) : Encoded :=
  if nbits = 16 then .stream [tableByte 2 w 0, tableByte 2 w 1]
  else if tableByte 4 w 0 = 0x01#8 then
    .stream [tableByte 4 w 0, tableByte 4 w 1, tableByte 4 w 2, tableByte 4 w 3]
  else .ctrl (BitVec.ofNat 32 w)

/-- The instruction that the decoder reads from a word numbered as spec/opcode_table.json numbers it. -/
def decodeTableWord (nbits w : Nat) : Option Instr :=
  match decode (tableCode nbits w) with
  | .ok (i, []) => some i
  | _ => none

end Sys2Proof
end

