-- ==== Sys2Proof/Machine/State.lean ====
section
/-! DEFINITION. The state of one LZSS-CORE (rule R20), the moves of the agents outside the core (rules R12, R200), the
reasons a step can stop, and the state after hardware reset (rule R240). -/

namespace Sys2Proof.Machine

/-- OP, rule R27: ENCODE is 0, DECODE is 1. -/
inductive Op where
  | encode
  | decode
deriving DecidableEq, Repr

/-- STATE, rule R28. -/
inductive Phase where
  | idle
  | busy
  | done
  | error
deriving DecidableEq, Repr

/-- The error codes of rule R211 other than NONE. -/
inductive ErrCode where
  | formatBadDisc
  | formatTruncLit
  | formatTruncMatch
  | rangeOffZero
  | rangeOffUnwritten
  | rangeOffBeyondWindow
  | capacityOut
  | capacityIn
deriving DecidableEq, Repr

/-- The byte spaces of rule R50. REG is the register fields of State. -/
inductive Space where
  | input
  | output
  | history
deriving DecidableEq, Repr

/-- The five registers of REG, rule R35. -/
inductive Reg where
  | ctrl
  | status
  | inLen
  | outLen
  | errPos
deriving DecidableEq, Repr

/-- The host accesses of rule R200, with the malformed REG accesses of rule R54 among them: an access to REG names its
byte offset and its width in bytes (log 15). -/
inductive HostAccess where
  | readIn (index : Nat)
  | writeIn (index : Nat) (value : Byte)
  | readOut (index : Nat)
  | writeOut (index : Nat) (value : Byte)
  | readReg (offset width : Nat)
  | writeReg (offset width : Nat) (value : Word)
deriving DecidableEq, Repr

/-- One move of a run: a core step, a host access or a hardware reset (rules R199, R200). -/
inductive Move where
  | core
  | host (access : HostAccess)
  | reset
deriving DecidableEq, Repr

/-- What a host read returned (log 3). A byte is zero-extended. -/
structure Reply where
  access : HostAccess
  value : Word
deriving DecidableEq, Repr

/-- The written bytes of one space: addresses strictly rising, and no entry that equals what an unlisted address of the
space holds (log 14). -/
abbrev Memory := List Host.Cell

/-- The complete architectural state (rule R20), the capacities (rule R7, log 1), and the model's own fields: what is
still to come (log 2), what the host last read (log 3) and the two counters that select free values (log 4, log 5). -/
structure State where
  /-- IN_CAP and OUT_CAP, which no step changes. -/
  cfg : Config
  /-- HIST, rule R21. -/
  hist : Memory
  /-- BPOS, rule R22. -/
  bpos : BitVec 12
  /-- HFILL, rule R24. -/
  hfill : BitVec 13
  /-- IPOS, rule R23. -/
  ipos : Word
  /-- OCNT, rule R25. -/
  ocnt : Word
  /-- OP, rule R27. -/
  op : Op
  /-- STATE, rule R28. -/
  phase : Phase
  /-- ECODE, rule R29. -/
  ecode : BitVec 4
  /-- ERR_POS, rule R30. -/
  errPos : Word
  /-- IN_LEN, rule R31. -/
  inLen : Word
  /-- OUT_LEN, rule R32. -/
  outLen : Word
  /-- IN, rule R51. -/
  inBuf : Memory
  /-- OUT, rule R52. -/
  outBuf : Memory
  /-- The model's own: hardware resets so far. -/
  resetCount : Nat
  /-- The model's own: unspecified OUT bytes drawn so far. -/
  outDraws : Nat
  /-- The model's own: what the last move returned, if it was a host read. -/
  reply : Option Reply
  /-- The model's own: the moves still to come; after them the core runs alone. -/
  schedule : List Move
deriving DecidableEq, Repr

/-- Why the machine stops. -/
inductive Fault where
  /-- Raised by the core's step and by a token's meaning while STATE is not BUSY: the core has no step (rule R203;
  93_implementation_defined.md F1, "stuck"). SAFE (log 7). -/
  | noStep
  /-- Raised by the core's step while STATE is BUSY and IPOS is above IN_LEN, where no rule gives a step; rule R23
  excludes such a state. SAFE (log 8). -/
  | cursorPastEnd
deriving DecidableEq, Repr

/-- Why an instruction has no meaning. -/
inductive Refusal where
  /-- Raised by exec for an instruction that has no meaning yet. No arm raises it. SAFE. -/
  | notModelled (mnemonic : String)
deriving DecidableEq, Repr

/-- The state after the hardware reset of rule R240, for a machine with the given capacities. HIST: log 6. IN and OUT:
log 4, log 5. -/
def State.resetWith (c : Config) : State :=
  { cfg := c, hist := [], bpos := 0, hfill := 0, ipos := 0, ocnt := 0, op := .encode, phase := .idle, ecode := 0,
    errPos := 0, inLen := 0, outLen := 0, inBuf := [], outBuf := [], resetCount := 0, outDraws := 0, reply := none,
    schedule := [] }

/-- The state after hardware reset (rule R240). The capacities are the largest of rule R7: DESIGN CHOICE (log 1). -/
def State.reset : State := State.resetWith Config.largest

end Sys2Proof.Machine
end

