-- ==== Sys2Proof/Machine/Ops.lean ====
section
/-! DEFINITION. The named operations over memory and registers: the byte spaces (rules R50 to R53), the window (rules
R101, R102, R108), the output stream (rule R52), the abort that every error takes (rule R215), the start of an operation
(rules R191, R193, R194), which is also the only return from an error besides reset (rule R218), and hardware reset
(rules R240, R241). -/

namespace Sys2Proof.Machine

/-- What an address of a space holds while nothing is listed for it. HIST: 0x00 (rules R101, R108). IN and OUT: no
value (rule R240; log 14); what a read then returns is a free value. -/
def Space.unlisted : Space → Option Byte
  | .input => none
  | .output => none
  | .history => some 0x00#8

/-- The listed byte at an address. -/
def Memory.read : Memory → Nat → Option Byte
  | [], _ => none
  | (a, v) :: m, k => if k = a then some v else Memory.read m k

/-- List a byte at its place in the address order. -/
def Memory.insert : Memory → Nat → Byte → Memory
  | [], k, v => [(k, v)]
  | (a, w) :: m, k, v =>
    if k < a then (k, v) :: (a, w) :: m
    else if k = a then (k, v) :: m
    else (a, w) :: Memory.insert m k v

/-- List no byte at an address. -/
def Memory.erase (m : Memory) (k : Nat) : Memory := m.filter (fun c => c.1 ≠ k)

/-- Write a byte: a byte equal to what the unlisted address holds is not listed, so that equal memories are equal
lists. -/
def Memory.write (sp : Space) (m : Memory) (k : Nat) (v : Byte) : Memory :=
  if some v = sp.unlisted then Memory.erase m k else Memory.insert m k v

/-- List bytes in IN from an index on (LOAD IN, rule R83). -/
def loadIn : List Byte → Nat → Memory → Memory
  | [], _, m => m
  | b :: bs, a, m => loadIn bs (a + 1) (Memory.write .input m a b)

/-- The canonical form: addresses strictly rising, no entry that equals what its address holds unlisted. -/
abbrev Memory.wf (sp : Space) (m : Memory) : Prop :=
  m.Pairwise (fun c d => c.1 < d.1) ∧ ∀ c ∈ m, some c.2 ≠ sp.unlisted

/-- Every listed address lies below a space's size (rule R50). -/
abbrev Memory.below (m : Memory) (size : Nat) : Prop := ∀ c ∈ m, c.1 < size

/-- MemRead(IN, a, 1), rule R51: the stored byte; where nothing was written since the last hardware reset, a free value
that stays the same until the next one (log 4). -/
def inByte (s : State) (a : Nat) : Byte :=
  (Memory.read s.inBuf a).getD (Config.powerOnInByte s.resetCount a)

/-- The byte that OUT holds at an index, if anything has written it since the last hardware reset. -/
def outByte (s : State) (a : Nat) : Option Byte := Memory.read s.outBuf a

/-- HistRead, rule R101: the byte last written to the entry since START, or 0x00. -/
def histRead (s : State) (i : BitVec 12) : Byte := (Memory.read s.hist i.toNat).getD 0x00#8

/-- HistPush(v), rule R102, the only write to HIST; the 12-bit cursor wraps (rule R103) and the fill saturates (rule
R104). -/
def histPush (v : Byte) (s : State) : State :=
  { s with
    hist := Memory.write .history s.hist s.bpos.toNat v
    bpos := s.bpos + 1
    hfill := BitVec.ofNat 13 (min (s.hfill.toNat + 1) W) }

/-- MemWrite(OUT, OCNT, 1, v) and OCNT <- OCNT + 1: the only write of OUT (rules R25, R52). -/
def putOut (v : Byte) (s : State) : State :=
  { s with outBuf := Memory.write .output s.outBuf s.ocnt.toNat v, ocnt := s.ocnt + 1 }

/-- HistPush of each byte of a list in order (rules R142, R143). -/
def pushAll : List Byte → State → State
  | [], s => s
  | v :: vs, s => pushAll vs (histPush v s)

/-- Write each byte of a list to OUT in order, one after another with no gap (rule R52). -/
def putAll : List Byte → State → State
  | [], s => s
  | v :: vs, s => putAll vs (putOut v s)

/-- IPOS <- IPOS + n (rule R23). -/
def advance (n : Nat) (s : State) : State := { s with ipos := s.ipos + BitVec.ofNat 32 n }

/-- The ECODE of rule R211. -/
def ErrCode.code : ErrCode → BitVec 4
  | .formatBadDisc => 1
  | .formatTruncLit => 2
  | .formatTruncMatch => 3
  | .rangeOffZero => 4
  | .rangeOffUnwritten => 5
  | .rangeOffBeyondWindow => 6
  | .capacityOut => 7
  | .capacityIn => 8

/-- The abort, rule R215: the one operation by which every error is taken. Nothing is saved beyond the code and the
position, and the rest of the step is not performed. -/
def abort (e : ErrCode) (pos : Word) (s : State) : State :=
  { s with ecode := e.code, errPos := pos, outLen := 0, phase := .error }

/-- Would n further output bytes exceed OUT_CAP (rule R214)? Compared as mathematical integers (rule R9). -/
def outFull (n : Nat) (s : State) : Bool := s.cfg.outCap < s.ocnt.toNat + n

/-- Clear the window, rule R108. -/
def clearWindow (s : State) : State := { s with hist := [], bpos := 0, hfill := 0 }

/-- START with the given OP, rule R191: ignored while BUSY (rule R193), CAPACITY_IN when IN_LEN > IN_CAP (rule R194),
otherwise the per-operation initial state (rule R242). IN and OUT keep their contents. -/
def startOperation (op : Op) (s : State) : State :=
  if s.phase = .busy then s
  else if s.cfg.inCap < s.inLen.toNat then abort .capacityIn 0 { s with op := op }
  else { clearWindow s with op := op, ipos := 0, ocnt := 0, outLen := 0, ecode := 0, errPos := 0, phase := .busy }

/-- Run a token's effect if the core has a step at all (rule R203; log 7). -/
def whileBusy (s : State) (next : State) : Host.Outcome State Fault Refusal :=
  if s.phase = .busy then .next next else .fault .noStep

/-- Finish, rule R204: OUT_LEN and STATE in one step (rule R62). -/
def finish (s : State) : State := { s with outLen := s.ocnt, phase := .done }

/-- Hardware reset in any STATE, rules R240, R241. The capacities are the machine's; the moves still to come and the
draws of free values are the run's; the contents of IN become a new free value (log 4, log 17). -/
def hardwareReset (s : State) : State :=
  { State.resetWith s.cfg with resetCount := s.resetCount + 1, outDraws := s.outDraws, schedule := s.schedule }

/-- Go on with the given moves still to come. -/
def withMoves (moves : List Move) (s : State) : State := { s with schedule := moves }

/-- The last move returned nothing to the host. -/
def clearReply (s : State) : State := { s with reply := none }

/-- A host read returned a value (log 3). -/
def withReply (a : HostAccess) (v : Word) (s : State) : State := { s with reply := some ⟨a, v⟩ }

end Sys2Proof.Machine
end

