-- ==== Sys2Proof/Machine/Control.lean ====
section
/-! DEFINITION. The meanings of the CTRL commands (rules R191 to R194). The ignored bits of the written value have no
effect (rules R33, R81). -/

namespace Sys2Proof.Machine

/-- START_ENCODE, rule R191 with v[1] = 0. -/
def execStartEncode (_ignored : BitVec 30) (s : State) : Host.Outcome State Fault Refusal :=
  .next (startOperation .encode s)

/-- START_DECODE, rule R191 with v[1] = 1. -/
def execStartDecode (_ignored : BitVec 30) (s : State) : Host.Outcome State Fault Refusal :=
  .next (startOperation .decode s)

/-- CTRL_NOP, rule R192: no effect. -/
def execCtrlNop (_ignored : BitVec 31) (s : State) : Host.Outcome State Fault Refusal := .next s

end Sys2Proof.Machine
end

