-- ==== Sys2Proof/Machine/Operands.lean ====
section
/-! DEFINITION. Where the operands of a step stand: the bytes of the token at IPOS (rules R160, R161), the lookahead
(rule R26), the window entry at a backward distance (rules R101, R165), the reference byte of a candidate match (rule
R121), and the register that a REG access names (rules R35, R36, R54). -/

namespace Sys2Proof.Machine

/-- The bytes of IN from IPOS that a token can have: at most four, none at or beyond IN_LEN (rules R51, R160). -/
def fetchBytes (s : State) : List Byte :=
  (List.range (min 4 (s.inLen.toNat - s.ipos.toNat))).map (fun k => inByte s (s.ipos.toNat + k))

/-- LA_LEN, rule R26. -/
def laLen (s : State) : Nat := min LA_MAX (s.inLen.toNat - s.ipos.toNat)

/-- LA[k], rule R26: a view of IN. -/
def lookahead (s : State) (k : Nat) : Byte := inByte s (s.ipos.toNat + k)

/-- (BPOS - d) mod W, rules R101, R165. -/
def backIndex (s : State) (d : Nat) : BitVec 12 := s.bpos - BitVec.ofNat 12 d

/-- The byte at backward distance d: the one pushed d pushes ago (rules R101, R105). -/
def backRead (s : State) (d : Nat) : Byte := histRead s (backIndex s d)

/-- Ref(off, k), rule R121: HIST[(BPOS - off + k) mod W] when k < off, and the token's own byte LA[k - off] in the
overlap case (90_conflicts.md C1). -/
def refByte (s : State) (off k : Nat) : Byte :=
  if k < off then histRead s (backIndex s off + BitVec.ofNat 12 k) else lookahead s (k - off)

/-- The register at a REG byte offset, rule R35. -/
def Reg.atOffset : Nat → Option Reg
  | 0x00 => some .ctrl
  | 0x04 => some .status
  | 0x08 => some .inLen
  | 0x0C => some .outLen
  | 0x10 => some .errPos
  | _ => none

/-- The register that an access names: only a 32-bit access at an assigned offset that is a multiple of 4 names one
(rules R36, R54). -/
def Reg.named (offset width : Nat) : Option Reg :=
  if width = 4 ∧ offset % 4 = 0 then Reg.atOffset offset else none

end Sys2Proof.Machine
end

