-- ==== Sys2Proof/Machine/Emit.lean ====
section
/-! DEFINITION. Emission of tokens in ENCODE (rules R141 to R143). -/

namespace Sys2Proof.Machine

/-- EMIT_LIT(b), rule R141: the bytes 00 b; the consumed byte is pushed. -/
def emitLit (b : Byte) (s : State) : State :=
  if outFull 2 s then abort .capacityOut s.ipos s
  else advance 1 (histPush b (putAll [0x00#8, b] s))

/-- EMIT_MATCH(off, len), rule R142: the bytes 01 off[15:8] off[7:0] len; the consumed bytes LA[0..len-1] are pushed
(rule R143). -/
def emitMatch (off : BitVec 16) (len : Byte) (s : State) : State :=
  if outFull 4 s then abort .capacityOut s.ipos s
  else
    advance len.toNat
      (pushAll ((List.range len.toNat).map (lookahead s))
        (putAll [0x01#8, offsetHigh off, offsetLow off, len] s))

end Sys2Proof.Machine
end

