-- ==== Sys2Proof/Machine/Tokens.lean ====
section
/-! DEFINITION. The meanings of LIT and MATCH. In DECODE they are executed (rules R162 to R167), in ENCODE they are
emitted (rules R141, R142); the opcode table gives each row both rules, and OP says which one a step runs (log 10). -/

namespace Sys2Proof.Machine

/-- LIT_EXEC, rule R162: truncation before capacity (rule R217). -/
def litExec (v : Byte) (s : State) : State :=
  if s.inLen.toNat < s.ipos.toNat + 2 then abort .formatTruncLit s.ipos s
  else if outFull 1 s then abort .capacityOut s.ipos s
  else advance 2 (histPush v (putOut v s))

/-- One iteration of MATCH_COPY, rule R164: read first, then write and push (rule R245). -/
def copyByte (off : Nat) (s : State) : State :=
  let b := backRead s off
  histPush b (putOut b s)

/-- MATCH_COPY(off, len), rule R164. -/
def matchCopy (off : Nat) : Nat → State → State
  | 0, s => s
  | n + 1, s => matchCopy off n (copyByte off s)

/-- MATCH_EXEC, rule R163: the checks in the order of rule R217, then the copy. -/
def matchExec (off : BitVec 16) (len : Byte) (s : State) : State :=
  if s.inLen.toNat < s.ipos.toNat + 4 then abort .formatTruncMatch s.ipos s
  else if off.toNat = 0 then abort .rangeOffZero s.ipos s
  else if W < off.toNat then abort .rangeOffBeyondWindow s.ipos s
  else if s.hfill.toNat < off.toNat then abort .rangeOffUnwritten s.ipos s
  else if outFull len.toNat s then abort .capacityOut s.ipos s
  else advance 4 (matchCopy off.toNat len.toNat s)

/-- LIT: rule R162 in DECODE, rule R141 in ENCODE. -/
def execLit (v : Byte) (s : State) : Host.Outcome State Fault Refusal :=
  whileBusy s (match s.op with
    | .decode => litExec v s
    | .encode => emitLit v s)

/-- MATCH: rules R163, R164 in DECODE, rule R142 in ENCODE. -/
def execMatchTok (off : BitVec 16) (len : Byte) (s : State) : Host.Outcome State Fault Refusal :=
  whileBusy s (match s.op with
    | .decode => matchExec off len s
    | .encode => emitMatch off len s)

end Sys2Proof.Machine
end

