-- ==== Sys2Proof/Machine/Dispatch.lean ====
section
/-! DEFINITION. One arm per constructor of Instr. -/

namespace Sys2Proof.Machine

def exec (i : Instr) (s : State) : Host.Outcome State Fault Refusal :=
  match i with
  | .lit v => Sys2Proof.Machine.execLit v s
  | .matchTok off len => Sys2Proof.Machine.execMatchTok off len s
  | .startEncode ignored => Sys2Proof.Machine.execStartEncode ignored s
  | .startDecode ignored => Sys2Proof.Machine.execStartDecode ignored s
  | .ctrlNop ignored => Sys2Proof.Machine.execCtrlNop ignored s

end Sys2Proof.Machine
end

