-- ==== Sys2Proof/Machine/Flags.lean ====
section
/-! DEFINITION. STATUS, the only flags of the block (rules R28, R34, R38), and the values that register reads return
(rules R33, R35, R36, R196). -/

namespace Sys2Proof.Machine

/-- ERROR, DONE, BUSY: STATUS bits 2:0 (rule R28). -/
def Phase.bits : Phase → BitVec 3
  | .idle => 0b000#3
  | .busy => 0b001#3
  | .done => 0b010#3
  | .error => 0b100#3

/-- OP as a bit (rule R27). -/
def Op.bit : Op → BitVec 1
  | .encode => 0#1
  | .decode => 1#1

/-- STATUS, rule R34: bits 31:8 read as 0, ECODE in 7:4, OP in 3, ERROR, DONE, BUSY in 2:0. -/
def statusWord (s : State) : Word := 0#24 ++ s.ecode ++ s.op.bit ++ s.phase.bits

/-- The value of a register read (rules R33, R34, R196). -/
def Reg.value (s : State) : Reg → Word
  | .ctrl => 0
  | .status => statusWord s
  | .inLen => s.inLen
  | .outLen => s.outLen
  | .errPos => s.errPos

/-- The value of a REG read: 0 unless the access names a register (rules R36, R54). -/
def regRead (s : State) (offset width : Nat) : Word :=
  match Reg.named offset width with
  | some r => r.value s
  | none => 0

end Sys2Proof.Machine
end

