-- ==== Sys2Proof/Machine/HostPort.lean ====
section
/-! DEFINITION. The host's accesses to IN, OUT and REG (rules R50 to R54, R59, R195 to R198). -/

namespace Sys2Proof.Machine

/-- A host read of IN, rules R51, R197. -/
def hostInByte (s : State) (a : Nat) : Byte := if a < s.cfg.inCap then inByte s a else 0x00#8

/-- A host write of IN, rules R51, R197: ignored while BUSY and beyond IN_CAP. -/
def hostWriteIn (a : Nat) (v : Byte) (s : State) : State :=
  if s.phase ≠ .busy ∧ a < s.cfg.inCap then { s with inBuf := Memory.write .input s.inBuf a v } else s

/-- A host write of IN_LEN, rule R195: ignored while BUSY. -/
def hostWriteInLen (n : Word) (s : State) : State := if s.phase = .busy then s else { s with inLen := n }

/-- The result byte that a host read of OUT returns by rule R52, if that rule gives one: OUT[a] with a < OUT_LEN while
STATE is DONE, and 0x00 at or beyond OUT_CAP. -/
def definedOutByte (s : State) (a : Nat) : Option Byte :=
  if s.cfg.outCap ≤ a then some 0x00#8
  else if s.phase = .done ∧ a < s.outLen.toNat then outByte s a
  else none

/-- Was the last move a host read of OUT[a]? -/
def repeatsRead (a : Nat) (s : State) : Bool :=
  match s.reply with
  | some r => r.access = .readOut a
  | none => false

/-- A host read of OUT, rule R52. An unspecified byte is a free value, drawn anew, except that repeating the read with no
other move between returns the same value (rule R59; log 5). -/
def hostReadOut (a : Nat) (s : State) : State :=
  match definedOutByte s a with
  | some v => withReply (.readOut a) (v.setWidth 32) s
  | none =>
    if repeatsRead a s then s
    else withReply (.readOut a) ((Config.unspecifiedOutByte s.outDraws).setWidth 32) { s with outDraws := s.outDraws + 1 }

/-- A host write of REG: CTRL runs its command (rules R33, R191, R192), IN_LEN stores (rule R195), every other write is
ignored (rules R35, R36, R54). -/
def hostWriteReg (offset width : Nat) (v : Word) (s : State) : Host.Outcome State Fault Refusal :=
  match Reg.named offset width with
  | some .ctrl => exec (decodeCtrl v) s
  | some .inLen => .next (hostWriteInLen v s)
  | some .status => .next s
  | some .outLen => .next s
  | some .errPos => .next s
  | none => .next s

/-- One host access, rule R200. A read changes nothing of the spec's state (rule R59); host writes of OUT are ignored
(rule R198). -/
def hostAccess (a : HostAccess) (s : State) : Host.Outcome State Fault Refusal :=
  match a with
  | .readIn i => .next (withReply (.readIn i) ((hostInByte s i).setWidth 32) s)
  | .writeIn i v => .next (hostWriteIn i v (clearReply s))
  | .readOut i => .next (hostReadOut i s)
  | .writeOut _ _ => .next (clearReply s)
  | .readReg offset width => .next (withReply (.readReg offset width) (regRead s offset width) s)
  | .writeReg offset width v => hostWriteReg offset width v (clearReply s)

end Sys2Proof.Machine
end

