-- ==== Sys2Proof/Machine/Detector.lean ====
section
/-! DEFINITION. The match detector, a pure function of the window and the lookahead (rules R120 to R130). Its
intermediate values are natural numbers (log 18). -/

namespace Sys2Proof.Machine

/-- The inner loop of rule R125 from position k, with a bound on the positions still to compare. -/
def runFrom (s : State) (off : Nat) : Nat → Nat → Nat
  | 0, k => k
  | fuel + 1, k => if lookahead s k = refByte s off k then runFrom s off fuel (k + 1) else k

/-- L(off), rule R123. -/
def runLength (s : State) (off : Nat) : Nat := runFrom s off (laLen s) 0

/-- The outer loop of rule R125 over the candidates 1..n in ascending order: (best_off, best_len). Only a strictly
longer run replaces the best, so the nearest offset wins a tie (rule R124). -/
def scan (s : State) : Nat → Nat × Nat
  | 0 => (0, 0)
  | n + 1 =>
    let best := scan s n
    let run := runLength s (n + 1)
    if best.2 < run then (n + 1, run) else best

/-- FindMatch, rule R125: the candidates are 1..HFILL (rule R122). -/
def findMatch (s : State) : Nat × Nat := scan s s.hfill.toNat

/-- The decision of rule R127. -/
def selectToken (s : State) : Instr :=
  let best := findMatch s
  if MIN_MATCH ≤ best.2 then .matchTok (BitVec.ofNat 16 best.1) (BitVec.ofNat 8 best.2)
  else .lit (lookahead s 0)

end Sys2Proof.Machine
end

