-- ==== Sys2Proof/Machine/Lifecycle.lean ====
section
/-! DEFINITION. The core's step (rule R203): Finish, one token of ENCODE, or one token of DECODE. -/

namespace Sys2Proof.Machine

/-- The error that a token which cannot be read raises (rule R212; log 9). -/
def fetchError : DecodeError → Option ErrCode
  | .endOfStream => none
  | .badDisc => some .formatBadDisc
  | .truncLit => some .formatTruncLit
  | .truncMatch => some .formatTruncMatch

/-- EncodeToken, rule R140: the detector decides once (rule R130), then its token is emitted. -/
def encodeStep (s : State) : Host.Outcome State Fault Refusal := exec (selectToken s) s

/-- DecodeToken, rule R160: fetch the token at IPOS and execute it, or take the FormatError at its first byte (rules
R212, R225). -/
def decodeStep (s : State) : Host.Outcome State Fault Refusal :=
  match decodeToken (fetchBytes s) with
  | .ok (i, _) => exec i s
  | .error e =>
    match fetchError e with
    | some code => .next (abort code s.ipos s)
    | none => .fault .cursorPastEnd

/-- CoreStep, rule R203. Outside BUSY the core has no step (log 7); with IPOS above IN_LEN no rule gives one (log 8). -/
def coreStep (s : State) : Host.Outcome State Fault Refusal :=
  if s.phase ≠ .busy then .fault .noStep
  else if s.ipos = s.inLen then .next (finish s)
  else if s.inLen.toNat < s.ipos.toNat then .fault .cursorPastEnd
  else
    match s.op with
    | .encode => encodeStep s
    | .decode => decodeStep s

end Sys2Proof.Machine
end

