-- ==== Sys2Proof/Machine/Step.lean ====
section
/-! DEFINITION. One step of the machine: the next move of the schedule (rule R200; log 2), and the core alone when no
move is left. -/

namespace Sys2Proof.Machine

/-- One step (rules R199, R200, R203). -/
def step (s : State) : Host.Outcome State Fault Refusal :=
  match s.schedule with
  | [] => coreStep (clearReply s)
  | .core :: moves => coreStep (clearReply (withMoves moves s))
  | .host a :: moves => hostAccess a (withMoves moves s)
  | .reset :: moves => .next (hardwareReset (withMoves moves s))

/-- The state whose very next step runs the instruction of the given table word. A command is the next host access, a
write of CTRL. A token is placed at IPOS inside IN_LEN, with a DECODE running and the core to move: what LOAD IN, WRITE
IN_LEN and START DECODE leave (log 12). -/
def State.withFetchWord (s : State) (nbits w : Nat) : State :=
  match tableCode nbits w with
  | .ctrl v => { s with schedule := .host (.writeReg 0x00 4 v) :: s.schedule }
  | .stream bytes =>
    { s with
      inBuf := loadIn bytes s.ipos.toNat s.inBuf
      inLen := BitVec.ofNat 32 (max s.inLen.toNat (s.ipos.toNat + bytes.length))
      op := .decode
      phase := .busy
      schedule := .core :: s.schedule }

end Sys2Proof.Machine
end

