-- ==== Sys2Proof/Safety.lean ====
section
/-! DEFINITION. The terms that claims about the machine use: which agent moves next, what an abort and a completed token
leave unchanged, and the two invariants of a run. -/

namespace Sys2Proof.Machine

/-- The core moves next: it is scheduled, or no move of another agent is left (rule R200; log 2). -/
def coreMoves (s : State) : Prop := s.schedule.head? = none ∨ s.schedule.head? = some .core

/-- The state in which the core's step starts: its move is taken from the schedule, and the host's last answer is gone
(log 2, log 3). -/
def atCoreStep (s : State) : State := clearReply (withMoves s.schedule.tail s)

/-- What no core step and no command changes: the machine's capacities, the input (rules R51, R65), and the model's own
fields. -/
structure SameSetting (s t : State) : Prop where
  cfg : t.cfg = s.cfg
  inLen : t.inLen = s.inLen
  inBytes : ∀ a, inByte t a = inByte s a
  resetCount : t.resetCount = s.resetCount
  outDraws : t.outDraws = s.outDraws
  reply : t.reply = s.reply
  schedule : t.schedule = s.schedule

/-- The status registers: OP, STATE, ECODE, ERR_POS, OUT_LEN (rules R27 to R32). -/
structure SameStatus (s t : State) : Prop where
  op : t.op = s.op
  phase : t.phase = s.phase
  ecode : t.ecode = s.ecode
  errPos : t.errPos = s.errPos
  outLen : t.outLen = s.outLen

/-- The datapath: window, cursors and every byte of OUT (rules R21 to R25, R52). -/
structure SameDatapath (s t : State) : Prop where
  histBytes : ∀ i, histRead t i = histRead s i
  bpos : t.bpos = s.bpos
  hfill : t.hfill = s.hfill
  ipos : t.ipos = s.ipos
  ocnt : t.ocnt = s.ocnt
  outBytes : ∀ a, outByte t a = outByte s a

/-- The abort of rule R215 with the given ECODE and ERR_POS: the failing token writes nothing to OUT or HIST, and the
cursors keep their values. -/
structure AbortedWith (code : Nat) (pos : Word) (s t : State) : Prop where
  ecode : t.ecode.toNat = code
  errPos : t.errPos = pos
  outLen : t.outLen = 0
  phase : t.phase = .error
  op : t.op = s.op
  datapath : SameDatapath s t
  setting : SameSetting s t

/-- The bytes vs are pushed, in order, and nothing else of HIST changes (rules R102, R143). -/
structure Pushed (vs : List Byte) (s t : State) : Prop where
  written : ∀ (k : Nat) (h : k < vs.length), k + W ≥ vs.length → histRead t (s.bpos + BitVec.ofNat 12 k) = vs[k]
  kept : ∀ i, (∀ k < vs.length, i ≠ s.bpos + BitVec.ofNat 12 k) → histRead t i = histRead s i
  bpos : t.bpos.toNat = (s.bpos.toNat + vs.length) % W
  hfill : t.hfill.toNat = min (s.hfill.toNat + vs.length) W

/-- The bytes vs are written to OUT from OCNT on, and no other byte of OUT changes (rules R25, R52). -/
structure Put (vs : List Byte) (s t : State) : Prop where
  written : ∀ (k : Nat) (h : k < vs.length), outByte t (s.ocnt.toNat + k) = some vs[k]
  kept : ∀ a, (a < s.ocnt.toNat ∨ s.ocnt.toNat + vs.length ≤ a) → outByte t a = outByte s a
  ocnt : t.ocnt.toNat = s.ocnt.toNat + vs.length

/-- A token that completes: out is written, pushed goes into the window, IPOS advances, and nothing else changes. -/
structure TokenDone (out pushed : List Byte) (used : Nat) (s t : State) : Prop where
  put : Put out s t
  push : Pushed pushed s t
  ipos : t.ipos.toNat = s.ipos.toNat + used
  status : SameStatus s t
  setting : SameSetting s t

/-- The invariant of the registers and the memories of a run. -/
structure Inv (s : State) : Prop where
  /-- Rule R7. -/
  cfg : s.cfg.wf
  histWf : Memory.wf .history s.hist
  inWf : Memory.wf .input s.inBuf
  outWf : Memory.wf .output s.outBuf
  /-- Rule R50: each space has its size. -/
  histBelow : Memory.below s.hist W
  inBelow : Memory.below s.inBuf s.cfg.inCap
  outBelow : Memory.below s.outBuf s.cfg.outCap
  /-- Rule R24. -/
  hfill : s.hfill.toNat ≤ W
  /-- Rule R25. -/
  ocnt : s.ocnt.toNat ≤ s.cfg.outCap
  /-- Rule R211: codes 9..15 are never produced. -/
  ecodeLegal : s.ecode.toNat ≤ 8
  /-- Rule R29. -/
  ecodeError : s.ecode ≠ 0 ↔ s.phase = .error
  /-- Rule R204: ERR_POS stays 0 unless an operation aborts. -/
  errPosError : s.phase ≠ .error → s.errPos = 0
  /-- Rule R32. -/
  outLenZero : s.phase ≠ .done → s.outLen = 0
  outLenDone : s.phase = .done → s.outLen = s.ocnt
  /-- Rules R51, R194: the input of a running operation lies in the buffer. -/
  inLenBusy : s.phase = .busy → s.inLen.toNat ≤ s.cfg.inCap
  /-- Rule R23, while an operation runs (log 13). -/
  iposBusy : s.phase = .busy → s.ipos.toNat ≤ s.inLen.toNat
  /-- Rule R52: OUT[0..OCNT-1] has been written. -/
  outWritten : s.phase = .busy ∨ s.phase = .done → ∀ a < s.ocnt.toNat, (outByte s a).isSome

/-- How many bytes the running operation has pushed (rules R106, R143): the input bytes consumed in ENCODE, the output
bytes produced in DECODE. -/
def pushCount (s : State) : Nat :=
  match s.op with
  | .encode => s.ipos.toNat
  | .decode => s.ocnt.toNat

/-- The n-th byte that the running operation has pushed (rule R106). -/
def pushedByte (s : State) (n : Nat) : Option Byte :=
  match s.op with
  | .encode => some (inByte s n)
  | .decode => outByte s n

/-- The window and lock-step invariants (rules R105, R106, R143) of a running operation. -/
structure Lockstep (s : State) : Prop where
  bpos : s.bpos.toNat = pushCount s % W
  hfill : s.hfill.toNat = min (pushCount s) W
  held : ∀ d, 1 ≤ d → d ≤ s.hfill.toNat → some (backRead s d) = pushedByte s (pushCount s - d)
  clear : ∀ d, s.hfill.toNat < d → d ≤ W → backRead s d = 0x00#8

/-- The ECODE that rule R217 gives the token at IPOS in DECODE, 0 if the token passes every check: the causes in the
rule's order. -/
def tokenErrorCode (s : State) : Nat :=
  let p := s.ipos.toNat
  let disc := (inByte s p).toNat
  let off := (inByte s (p + 1)).toNat * 256 + (inByte s (p + 2)).toNat
  let len := (inByte s (p + 3)).toNat
  if 2 ≤ disc then 1
  else if disc = 0 then
    if s.inLen.toNat < p + 2 then 2
    else if s.cfg.outCap < s.ocnt.toNat + 1 then 7
    else 0
  else if s.inLen.toNat < p + 4 then 3
  else if off = 0 then 4
  else if W < off then 6
  else if s.hfill.toNat < off then 5
  else if s.cfg.outCap < s.ocnt.toNat + len then 7
  else 0

/-- Two states that the host cannot tell apart at the end of an operation, and whose operations stand at the same token:
rule R202's result and the hidden cursors. -/
structure SameProgress (s t : State) : Prop where
  status : SameStatus s t
  ipos : t.ipos = s.ipos
  ocnt : t.ocnt = s.ocnt
  outBytes : ∀ a < s.ocnt.toNat, outByte t a = outByte s a

/-- LOAD IN, WRITE IN_LEN and a CTRL write, as moves of the host (rules R83, R243). -/
def useSequence (input : List Byte) (command : Word) : List Move :=
  input.mapIdx (fun a b => Move.host (.writeIn a b)) ++
    [.host (.writeReg 0x08 4 (BitVec.ofNat 32 input.length)), .host (.writeReg 0x00 4 command)]

end Sys2Proof.Machine
end

