-- ==== Sys2Proof/Certificates/Slice0/Obligations.lean ====
section
/-! DEFINITION. The statements for the provers, from the numbered rules of spec/. -/

open Sys2Proof Sys2Proof.Machine

/-! ## Encoding -/

/-- Decode and encode determine each other: a stream decodes to i with rest left over exactly when it is i's bytes
followed by rest, and a CTRL value decodes to i exactly when i encodes to it (30_encoding.md). -/
def Obligations.DecodeReadsExactlyWhatEncodeWrites : Prop :=
  (∀ (i : Instr) (bytes rest : List Byte),
    decode (.stream bytes) = .ok (i, rest) ↔ ∃ own, encode i = .stream own ∧ bytes = own ++ rest) ∧
  (∀ (i : Instr) (v : Word) (rest : List Byte),
    decode (.ctrl v) = .ok (i, rest) ↔ encode i = .ctrl v ∧ rest = [])

/-- Rule R71: the first byte alone tells a token's length. -/
def Obligations.FirstByteTellsTokenLength : Prop :=
  ∀ (disc : Byte) (tail : List Byte),
    (disc = 0x00#8 → ∀ i rest, decodeToken (disc :: tail) = .ok (i, rest) →
      ∃ own, own.length = 2 ∧ disc :: tail = own ++ rest) ∧
    (disc = 0x01#8 → ∀ i rest, decodeToken (disc :: tail) = .ok (i, rest) →
      ∃ own, own.length = 4 ∧ disc :: tail = own ++ rest) ∧
    (2 ≤ disc.toNat → decodeToken (disc :: tail) = .error .badDisc) ∧
    (disc = 0x00#8 → 2 ≤ (disc :: tail).length → ∃ v rest, decodeToken (disc :: tail) = .ok (.lit v, rest)) ∧
    (disc = 0x01#8 → 4 ≤ (disc :: tail).length →
      ∃ off len rest, decodeToken (disc :: tail) = .ok (.matchTok off len, rest))

/-- Rules R74 and R75 on the decoder's side: the offset is big-endian, unscaled and unbiased; so is the length. -/
def Obligations.OffsetIsAssembledBigEndian : Prop :=
  ∀ (hi lo len : Byte) (rest : List Byte), ∃ off : BitVec 16,
    decodeToken (0x01#8 :: hi :: lo :: len :: rest) = .ok (.matchTok off len, rest) ∧
    off.toNat = hi.toNat * 256 + lo.toNat

/-- Words written out from rules R72, R73 and R81 decode to what they stand for. The last two clauses read opcode-table
words: the 16-bit one as rule R76 numbers a LIT, and the 32-bit one as a MATCH because its bits 31:24 are 0x01, which is the
model's choice (DESIGN CHOICE, log 11): as a CTRL value the same number is a CTRL_NOP. -/
def Obligations.SampleWordsDecode : Prop :=
  decode (.stream [0x00#8, 0x41#8]) = .ok (.lit 0x41#8, []) ∧
  decode (.stream [0x01#8, 0x10#8, 0x00#8, 0x04#8]) = .ok (.matchTok 4096#16 4#8, []) ∧
  decode (.ctrl 0xFFFFFFFD#32) = .ok (.startEncode 0x3FFFFFFF#30, []) ∧
  decode (.ctrl 0x00000003#32) = .ok (.startDecode 0#30, []) ∧
  decode (.ctrl 0xFFFFFFFC#32) = .ok (.ctrlNop 0x7FFFFFFE#31, []) ∧
  decodeTableWord 16 0x0041 = some (.lit 0x41#8) ∧
  decodeTableWord 32 0x01100004 = some (.matchTok 4096#16 4#8)

/-- Rule R81: only bits 1:0 of a value written to CTRL are decoded. -/
def Obligations.CommandsAreDecodedFromTwoBits : Prop :=
  ∀ v : Word,
    (v &&& 0x3#32 = 0x1#32 ↔ ∃ r, decodeCtrl v = .startEncode r) ∧
    (v &&& 0x3#32 = 0x3#32 ↔ ∃ r, decodeCtrl v = .startDecode r) ∧
    (v &&& 0x1#32 = 0x0#32 ↔ ∃ r, decodeCtrl v = .ctrlNop r)

/-! ## The step -/

/-- A step runs the decoded instruction. When the bytes at IPOS, inside IN_LEN, decode to i while a DECODE runs and the
core moves, the step is exec of i (rule R160); when the host writes a value to CTRL, the step is exec of the command it
decodes to (rule R33). Around exec, the step takes the move from the schedule and forgets the host's last answer (log 2,
log 3). -/
def Obligations.StepRunsTheDecodedInstruction : Prop :=
  (∀ (s : State) (i : Instr) (bytes : List Byte),
    coreMoves s → s.phase = .busy → s.op = .decode →
    decode (.stream bytes) = .ok (i, []) →
    s.ipos.toNat + bytes.length ≤ s.inLen.toNat →
    (∀ (k : Nat) (h : k < bytes.length), inByte s (s.ipos.toNat + k) = bytes[k]) →
    step s = exec i (atCoreStep s)) ∧
  (∀ (s : State) (i : Instr) (v : Word) (moves : List Move),
    s.schedule = .host (.writeReg 0x00 4 v) :: moves →
    decode (.ctrl v) = .ok (i, []) →
    step s = exec i (clearReply (withMoves moves s)))

/-- Rules R127 and R140: in ENCODE the step emits LIT of the next input byte when every candidate's run is shorter than
3, and otherwise MATCH of the nearest offset with the longest run. -/
def Obligations.EncodeStepEmitsTheChosenToken : Prop :=
  ∀ s : State, coreMoves s → s.phase = .busy → s.op = .encode → s.ipos.toNat < s.inLen.toNat →
    s.hfill.toNat ≤ W →
    ((∀ off, 1 ≤ off → off ≤ s.hfill.toNat → runLength s off < 3) →
      step s = exec (.lit (inByte s s.ipos.toNat)) (atCoreStep s)) ∧
    (∀ off, 1 ≤ off → off ≤ s.hfill.toNat → 3 ≤ runLength s off →
      (∀ o, 1 ≤ o → o ≤ s.hfill.toNat → runLength s o ≤ runLength s off) →
      (∀ o, 1 ≤ o → o < off → runLength s o < runLength s off) →
      ∃ (f : BitVec 16) (n : Byte), f.toNat = off ∧ n.toNat = runLength s off ∧
        step s = exec (.matchTok f n) (atCoreStep s))

/-- Rules R77 and R212: a token that cannot be read raises its FormatError at the token's first byte. -/
def Obligations.MalformedTokensRaiseFormatErrors : Prop :=
  ∀ s : State, coreMoves s → s.phase = .busy → s.op = .decode → s.ipos.toNat < s.inLen.toNat →
    (2 ≤ (inByte s s.ipos.toNat).toNat → ∃ t, step s = .next t ∧ AbortedWith 1 s.ipos (atCoreStep s) t) ∧
    (inByte s s.ipos.toNat = 0x00#8 → s.inLen.toNat < s.ipos.toNat + 2 →
      ∃ t, step s = .next t ∧ AbortedWith 2 s.ipos (atCoreStep s) t) ∧
    (inByte s s.ipos.toNat = 0x01#8 → s.inLen.toNat < s.ipos.toNat + 4 →
      ∃ t, step s = .next t ∧ AbortedWith 3 s.ipos (atCoreStep s) t)

/-- Rule R217: of several causes of one token the first in the rule's order is reported, with the token's first byte as
position; a token with no cause leaves the operation running; CAPACITY_IN is raised at START, before any token. -/
def Obligations.FirstCauseOfATokenIsReported : Prop :=
  (∀ s : State, s.cfg.wf → coreMoves s → s.phase = .busy → s.op = .decode → s.ipos.toNat < s.inLen.toNat →
    ∃ t, step s = .next t ∧
      (tokenErrorCode s ≠ 0 → AbortedWith (tokenErrorCode s) s.ipos (atCoreStep s) t) ∧
      (tokenErrorCode s = 0 → t.phase = .busy ∧ t.ecode = s.ecode)) ∧
  (∀ (s : State) (i : Instr), (∃ r, i = .startEncode r ∨ i = .startDecode r) → s.phase ≠ .busy →
    s.cfg.inCap < s.inLen.toNat → ∃ t, exec i s = .next t ∧ t.phase = .error ∧ t.ecode.toNat = 8)

/-- Rule R204: Finish sets OUT_LEN and STATE in one step and changes nothing else. -/
def Obligations.FinishPublishesTheResult : Prop :=
  ∀ s : State, Inv s → coreMoves s → s.phase = .busy → s.ipos = s.inLen →
    ∃ t, step s = .next t ∧ t.phase = .done ∧ t.outLen = s.ocnt ∧ t.ecode = 0 ∧ t.errPos = 0 ∧ t.op = s.op ∧
      SameDatapath s t ∧ SameSetting (atCoreStep s) t

/-- Rule R203 (the core has no step unless STATE is BUSY) as the model renders "no step": the named stop of log 7, an
inference from 93_implementation_defined.md F1. -/
def Obligations.CoreStepsOnlyWhileBusy : Prop :=
  ∀ s : State, coreMoves s →
    (s.phase ≠ .busy → step s = .fault .noStep) ∧
    (s.phase = .busy → s.ipos.toNat ≤ s.inLen.toNat → ∃ t, step s = .next t)

/-! ## The window -/

/-- Rules R102 and R103: HistPush writes the entry at the cursor and no other, the cursor wraps, the fill saturates, and
nothing else changes. -/
def Obligations.HistPushWritesOneEntry : Prop :=
  ∀ (v : Byte) (s : State), ∃ t, histPush v s = t ∧
    histRead t s.bpos = v ∧ (∀ i, i ≠ s.bpos → histRead t i = histRead s i) ∧
    t.bpos.toNat = (s.bpos.toNat + 1) % W ∧ t.hfill.toNat = min (s.hfill.toNat + 1) W ∧
    t.ipos = s.ipos ∧ t.ocnt = s.ocnt ∧ (∀ a, outByte t a = outByte s a) ∧ SameStatus s t ∧ SameSetting s t

/-- Rule R105: after n pushes since START the byte at distance d is the one pushed d pushes ago, and every entry not
pushed reads 0x00. -/
def Obligations.WindowHoldsTheLastBytesPushed : Prop :=
  ∀ (vs : List Byte) (s : State), ∃ t, pushAll vs (clearWindow s) = t ∧
    t.bpos.toNat = vs.length % W ∧ t.hfill.toNat = min vs.length W ∧
    (∀ d, 1 ≤ d → d ≤ t.hfill.toNat → some (histRead t (backIndex t d)) = vs[vs.length - d]?) ∧
    (∀ d, t.hfill.toNat < d → d ≤ W → histRead t (backIndex t d) = 0x00#8)

/-- Rules R107 and R108 on the model: a core step from states that differ only in window entries beyond HFILL gives
states that differ only there. So no rule reads an entry not written since START. -/
def Obligations.UnwrittenEntriesAreNeverRead : Prop :=
  ∀ (s t : State) (other : Memory), s.hfill.toNat ≤ W →
    (∀ d, 1 ≤ d → d ≤ s.hfill.toNat →
      histRead { s with hist := other } (backIndex s d) = histRead s (backIndex s d)) →
    coreStep s = .next t →
    ∃ u, coreStep { s with hist := other } = .next u ∧ { u with hist := t.hist } = t ∧
      ∀ d, 1 ≤ d → d ≤ t.hfill.toNat → histRead u (backIndex u d) = histRead t (backIndex t d)

/-! ## The match detector -/

/-- Rule R123: L(off) counts the leading positions that match, up to the first mismatch or LA_LEN. -/
def Obligations.RunLengthStopsAtTheFirstMismatch : Prop :=
  ∀ (s : State) (off : Nat),
    runLength s off ≤ min 18 (s.inLen.toNat - s.ipos.toNat) ∧
    (∀ k < runLength s off, inByte s (s.ipos.toNat + k) = refByte s off k) ∧
    (runLength s off < min 18 (s.inLen.toNat - s.ipos.toNat) →
      inByte s (s.ipos.toNat + runLength s off) ≠ refByte s off (runLength s off))

/-- Rule R124: the longest run over all candidates, and of equal runs the smallest offset. -/
def Obligations.DetectorTakesLongestThenNearest : Prop :=
  ∀ s : State, ∃ off len, findMatch s = (off, len) ∧
    (∀ o, 1 ≤ o → o ≤ s.hfill.toNat → runLength s o ≤ len) ∧
    (1 ≤ len → 1 ≤ off ∧ off ≤ s.hfill.toNat ∧ runLength s off = len ∧
      ∀ o, 1 ≤ o → o < off → runLength s o < len) ∧
    (len = 0 → off = 0)

/-- Rule R126: in ENCODE the reference byte is the input byte off positions earlier, so L(off) is the longest common
prefix of IN[IPOS ..] and IN[IPOS - off ..], capped at LA_LEN. -/
def Obligations.ReferenceByteIsEarlierInput : Prop :=
  ∀ s : State, s.op = .encode → Lockstep s → ∀ off, 1 ≤ off → off ≤ s.hfill.toNat →
    (∀ k, k < laLen s → refByte s off k = inByte s (s.ipos.toNat - off + k)) ∧
    runLength s off ≤ laLen s ∧
    (∀ k < runLength s off, inByte s (s.ipos.toNat + k) = inByte s (s.ipos.toNat - off + k)) ∧
    (runLength s off < laLen s →
      inByte s (s.ipos.toNat + runLength s off) ≠ inByte s (s.ipos.toNat - off + runLength s off))

/-- Rule R129: the detector's results lie in their ranges, and every token that ENCODE emits is well formed. -/
def Obligations.EmittedTokensAreWellFormed : Prop :=
  (∀ s : State, (findMatch s).2 ≤ laLen s ∧ laLen s ≤ 18) ∧
  (∀ s : State, s.op = .encode → Lockstep s → 1 ≤ (findMatch s).2 →
    1 ≤ (findMatch s).1 ∧ (findMatch s).1 ≤ s.hfill.toNat ∧ s.hfill.toNat ≤ min 4096 s.ipos.toNat) ∧
  (∀ s : State, s.op = .encode → Lockstep s →
    (selectToken s).wellFormed = true ∧
    ∀ off len, selectToken s = .matchTok off len →
      3 ≤ len.toNat ∧ len.toNat ≤ 18 ∧ 1 ≤ off.toNat ∧ off.toNat ≤ min 4096 s.ipos.toNat)

/-! ## LIT and MATCH -/

/-- Rule R162: LIT in DECODE. -/
def Obligations.LitIsExecuted : Prop :=
  ∀ (v : Byte) (s : State), s.cfg.wf → s.phase = .busy → s.op = .decode →
    (s.inLen.toNat < s.ipos.toNat + 2 → ∃ t, exec (.lit v) s = .next t ∧ AbortedWith 2 s.ipos s t) ∧
    (s.ipos.toNat + 2 ≤ s.inLen.toNat → s.cfg.outCap < s.ocnt.toNat + 1 →
      ∃ t, exec (.lit v) s = .next t ∧ AbortedWith 7 s.ipos s t) ∧
    (s.ipos.toNat + 2 ≤ s.inLen.toNat → s.ocnt.toNat + 1 ≤ s.cfg.outCap →
      ∃ t, exec (.lit v) s = .next t ∧ TokenDone [v] [v] 2 s t)

/-- Rules R163 to R165: MATCH in DECODE. Byte k of the copy is read at (BPOS_0 - off + k) mod W, or, in an overlapping
copy, is byte k - off of the same token (rule R166); so it is the window byte at (BPOS_0 - off + (k mod off)) mod W. -/
def Obligations.MatchIsExecuted : Prop :=
  ∀ (off : BitVec 16) (len : Byte) (s : State), s.cfg.wf → s.phase = .busy → s.op = .decode → s.hfill.toNat ≤ W →
    (s.inLen.toNat < s.ipos.toNat + 4 → ∃ t, exec (.matchTok off len) s = .next t ∧ AbortedWith 3 s.ipos s t) ∧
    (s.ipos.toNat + 4 ≤ s.inLen.toNat → off.toNat = 0 →
      ∃ t, exec (.matchTok off len) s = .next t ∧ AbortedWith 4 s.ipos s t) ∧
    (s.ipos.toNat + 4 ≤ s.inLen.toNat → 4096 < off.toNat →
      ∃ t, exec (.matchTok off len) s = .next t ∧ AbortedWith 6 s.ipos s t) ∧
    (s.ipos.toNat + 4 ≤ s.inLen.toNat → 1 ≤ off.toNat → off.toNat ≤ 4096 → s.hfill.toNat < off.toNat →
      ∃ t, exec (.matchTok off len) s = .next t ∧ AbortedWith 5 s.ipos s t) ∧
    (s.ipos.toNat + 4 ≤ s.inLen.toNat → 1 ≤ off.toNat → off.toNat ≤ 4096 → off.toNat ≤ s.hfill.toNat →
      s.cfg.outCap < s.ocnt.toNat + len.toNat →
      ∃ t, exec (.matchTok off len) s = .next t ∧ AbortedWith 7 s.ipos s t) ∧
    (s.ipos.toNat + 4 ≤ s.inLen.toNat → 1 ≤ off.toNat → off.toNat ≤ 4096 → off.toNat ≤ s.hfill.toNat →
      s.ocnt.toNat + len.toNat ≤ s.cfg.outCap →
      ∃ t copied, exec (.matchTok off len) s = .next t ∧ TokenDone copied copied 4 s t ∧
        copied = (List.range len.toNat).map
          (fun k => histRead s (s.bpos - BitVec.ofNat 12 off.toNat + BitVec.ofNat 12 (k % off.toNat))))

/-- Rule R166: an overlapping copy repeats the last off output bytes cyclically. -/
def Obligations.OverlappingCopyRepeatsItself : Prop :=
  ∀ (off : BitVec 16) (len : Byte) (s t : State), s.cfg.wf → s.phase = .busy → s.op = .decode → Lockstep s →
    s.ipos.toNat + 4 ≤ s.inLen.toNat → 1 ≤ off.toNat → off.toNat ≤ s.hfill.toNat →
    s.ocnt.toNat + len.toNat ≤ s.cfg.outCap → exec (.matchTok off len) s = .next t →
    ∀ k < len.toNat, (outByte s (s.ocnt.toNat - off.toNat + k % off.toNat)).isSome ∧
      outByte t (s.ocnt.toNat + k) = outByte s (s.ocnt.toNat - off.toNat + k % off.toNat)

/-- Rule R167: DECODE accepts every length and copies exactly that many bytes; length 0 advances IPOS by 4 and changes
nothing else. -/
def Obligations.EveryMatchLengthIsAccepted : Prop :=
  ∀ (off : BitVec 16) (len : Byte) (s : State), s.cfg.wf → s.phase = .busy → s.op = .decode →
    s.ipos.toNat + 4 ≤ s.inLen.toNat → 1 ≤ off.toNat → off.toNat ≤ 4096 → off.toNat ≤ s.hfill.toNat →
    s.ocnt.toNat + len.toNat ≤ s.cfg.outCap →
    ∃ t, exec (.matchTok off len) s = .next t ∧ t.phase = .busy ∧ t.ocnt.toNat = s.ocnt.toNat + len.toNat ∧
      (len = 0 → t = { s with ipos := s.ipos + 4 })

/-- Rule R245: in one iteration of the copy the read comes before the push, so at the full window distance the byte from
4096 positions back is copied and the window is written back unchanged. -/
def Obligations.CopyReadsBeforeItPushes : Prop :=
  ∀ (off : Nat) (s : State), 1 ≤ off → off ≤ W →
    outByte (copyByte off s) s.ocnt.toNat = some (histRead s (s.bpos - BitVec.ofNat 12 off)) ∧
    histRead (copyByte off s) s.bpos = histRead s (s.bpos - BitVec.ofNat 12 off) ∧
    (off = W → outByte (copyByte off s) s.ocnt.toNat = some (histRead s s.bpos) ∧
      ∀ i, histRead (copyByte off s) i = histRead s i)

/-- Rule R141: LIT in ENCODE. The operand is IN[IPOS] when a step emits it. -/
def Obligations.LitIsEmitted : Prop :=
  ∀ (b : Byte) (s : State), s.cfg.wf → s.phase = .busy → s.op = .encode → s.ipos.toNat < s.inLen.toNat →
    (s.cfg.outCap < s.ocnt.toNat + 2 → ∃ t, exec (.lit b) s = .next t ∧ AbortedWith 7 s.ipos s t) ∧
    (s.ocnt.toNat + 2 ≤ s.cfg.outCap →
      ∃ t, exec (.lit b) s = .next t ∧ TokenDone [0x00#8, b] [b] 1 s t)

/-- Rule R142: MATCH in ENCODE: the offset high byte first, and the consumed input bytes pushed. -/
def Obligations.MatchIsEmitted : Prop :=
  ∀ (off : BitVec 16) (len : Byte) (s : State), s.cfg.wf → s.phase = .busy → s.op = .encode → s.hfill.toNat ≤ W →
    s.ipos.toNat + len.toNat ≤ s.inLen.toNat →
    (s.cfg.outCap < s.ocnt.toNat + 4 → ∃ t, exec (.matchTok off len) s = .next t ∧ AbortedWith 7 s.ipos s t) ∧
    (s.ocnt.toNat + 4 ≤ s.cfg.outCap →
      ∃ t, exec (.matchTok off len) s = .next t ∧
        TokenDone [0x01#8, BitVec.ofNat 8 (off.toNat / 256), BitVec.ofNat 8 (off.toNat % 256), len]
          ((List.range len.toNat).map (fun k => inByte s (s.ipos.toNat + k))) len.toNat s t)

/-- Rules R168 and R244: every token step raises, or advances IPOS within IN_LEN, by 1 to 18 in ENCODE and by 2 or 4 in
DECODE. -/
def Obligations.EveryTokenStepAdvances : Prop :=
  ∀ s t : State, s.cfg.wf → coreMoves s → s.phase = .busy → s.ipos.toNat < s.inLen.toNat → step s = .next t →
    t.phase = .error ∨
    (t.phase = .busy ∧ t.ipos.toNat ≤ s.inLen.toNat ∧ t.inLen = s.inLen ∧
      (s.op = .encode → s.ipos.toNat + 1 ≤ t.ipos.toNat ∧ t.ipos.toNat ≤ s.ipos.toNat + 18) ∧
      (s.op = .decode → t.ipos.toNat = s.ipos.toNat + 2 ∨ t.ipos.toNat = s.ipos.toNat + 4))

/-! ## Errors -/

/-- Rules R215 and R225: a core step that ends in ERROR records a code of rule R211 and the position of the token's first
byte, clears OUT_LEN, and changes nothing else: no byte of OUT or HIST and no cursor. -/
def Obligations.AbortLeavesTheDatapath : Prop :=
  ∀ s t : State, coreMoves s → step s = .next t → t.phase = .error →
    s.phase = .busy ∧ s.ipos.toNat < s.inLen.toNat ∧
    ∃ code, 1 ≤ code ∧ code ≤ 7 ∧ AbortedWith code s.ipos (atCoreStep s) t

/-- Rule R148: ENCODE raises no FormatError and no RangeError: a core step of ENCODE that ends in ERROR raises
CAPACITY_OUT, and START of ENCODE raises at most CAPACITY_IN. -/
def Obligations.EncodeRaisesOnlyCapacityErrors : Prop :=
  (∀ s t : State, coreMoves s → s.op = .encode → step s = .next t → t.phase = .error → t.ecode.toNat = 7) ∧
  (∀ (s t : State) (r : BitVec 30), s.phase ≠ .busy → exec (.startEncode r) s = .next t → t.phase = .error →
    t.ecode.toNat = 8 ∧ t.errPos = 0)

/-! ## Commands and the lifecycle -/

/-- Rules R191, R193 and R194, with the window clear of rule R108: START_ENCODE and START_DECODE are ignored while BUSY,
abort with CAPACITY_IN when IN_LEN exceeds IN_CAP, and otherwise leave the operation's initial state. IN, IN_LEN and the
contents of OUT are kept. -/
def Obligations.StartBeginsAnOperation : Prop :=
  ∀ (i : Instr) (op : Op) (r : BitVec 30) (s : State),
    (i = .startEncode r ∧ op = .encode ∨ i = .startDecode r ∧ op = .decode) →
    (s.phase = .busy → exec i s = .next s) ∧
    (s.phase ≠ .busy → s.cfg.inCap < s.inLen.toNat →
      ∃ t, exec i s = .next t ∧ t.op = op ∧ t.outLen = 0 ∧ t.ecode.toNat = 8 ∧ t.errPos = 0 ∧ t.phase = .error ∧
        SameDatapath s t ∧ SameSetting s t) ∧
    (s.phase ≠ .busy → s.inLen.toNat ≤ s.cfg.inCap →
      ∃ t, exec i s = .next t ∧ t.op = op ∧ (∀ e, histRead t e = 0x00#8) ∧ t.bpos = 0 ∧ t.hfill = 0 ∧ t.ipos = 0 ∧
        t.ocnt = 0 ∧ t.outLen = 0 ∧ t.ecode = 0 ∧ t.errPos = 0 ∧ t.phase = .busy ∧
        (∀ a, outByte t a = outByte s a) ∧ SameSetting s t)

/-- Rule R192: a CTRL write with bit 0 = 0 has no effect, whatever the other bits hold. -/
def Obligations.CtrlNopHasNoEffect : Prop :=
  (∀ (r : BitVec 31) (s : State), exec (.ctrlNop r) s = .next s) ∧
  (∀ (s : State) (v : Word) (moves : List Move), v.getLsbD 0 = false →
    s.schedule = .host (.writeReg 0x00 4 v) :: moves → step s = .next (clearReply (withMoves moves s)))

/-- Rule R199: STATE moves only by hardware reset, by START outside BUSY, by Finish, and by a core step that raises. -/
def Obligations.StateMovesOnlyAsTheLifecycleSays : Prop :=
  ∀ s t : State, step s = .next t → t.phase ≠ s.phase →
    (∃ moves, s.schedule = .reset :: moves ∧ t.phase = .idle) ∨
    (∃ moves v, s.schedule = .host (.writeReg 0x00 4 v) :: moves ∧ v.getLsbD 0 = true ∧ s.phase ≠ .busy ∧
      (s.inLen.toNat ≤ s.cfg.inCap → t.phase = .busy) ∧ (s.cfg.inCap < s.inLen.toNat → t.phase = .error)) ∨
    (coreMoves s ∧ s.phase = .busy ∧ s.ipos = s.inLen ∧ t.phase = .done) ∨
    (coreMoves s ∧ s.phase = .busy ∧ s.ipos ≠ s.inLen ∧ t.phase = .error ∧ t.ecode ≠ 0)

/-! ## The host's accesses -/

/-- Rule R59: a host read changes no state of the spec, and reading again at once returns the same value; a host write
other than START changes at most the byte of IN or the IN_LEN it stores. What changes besides is the model's own: the
schedule, the answer and the count of drawn values (log 2, log 3, log 5). -/
def Obligations.HostReadsHaveNoSideEffect : Prop :=
  (∀ (s : State) (a : HostAccess) (moves : List Move),
    ((∃ i, a = .readIn i) ∨ (∃ i, a = .readOut i) ∨ ∃ o w, a = .readReg o w) →
    s.schedule = .host a :: .host a :: moves →
    ∃ t u x, step s = .next t ∧ step t = .next u ∧ t.reply = some ⟨a, x⟩ ∧ u.reply = some ⟨a, x⟩ ∧
      { t with schedule := s.schedule, reply := s.reply, outDraws := s.outDraws } = s) ∧
  (∀ (s t : State) (a : HostAccess) (moves : List Move),
    s.schedule = .host a :: moves → (∀ v, a = .writeReg 0x00 4 v → v.getLsbD 0 = false) → step s = .next t →
    { t with schedule := s.schedule, reply := s.reply, outDraws := s.outDraws, inBuf := s.inBuf, inLen := s.inLen } = s)

/-- Rule R34: a read of STATUS returns its fields and changes nothing, a write is ignored, and STATUS is 0 after reset. -/
def Obligations.StatusShowsStateOpAndEcode : Prop :=
  (∀ (s : State) (moves : List Move), s.schedule = .host (.readReg 0x04 4) :: moves →
    ∃ t w, step s = .next t ∧ t = withReply (.readReg 0x04 4) w (withMoves moves s) ∧
      (w.getLsbD 0 = true ↔ s.phase = .busy) ∧ (w.getLsbD 1 = true ↔ s.phase = .done) ∧
      (w.getLsbD 2 = true ↔ s.phase = .error) ∧ (w.getLsbD 3 = true ↔ s.op = .decode) ∧
      w.extractLsb' 4 4 = s.ecode ∧ w.extractLsb' 8 24 = 0#24) ∧
  (∀ (s : State) (v : Word) (moves : List Move), s.schedule = .host (.writeReg 0x04 4 v) :: moves →
    step s = .next (clearReply (withMoves moves s))) ∧
  statusWord State.reset = 0

/-- Rules R33 (reads) and R196: what a read of CTRL, IN_LEN, OUT_LEN and ERR_POS returns, without a side effect. -/
def Obligations.RegisterReadsReturnTheRegister : Prop :=
  ∀ (s : State) (o : Nat) (w : Word) (moves : List Move),
    (o = 0x00 ∧ w = 0 ∨ o = 0x08 ∧ w = s.inLen ∨ o = 0x0C ∧ w = s.outLen ∨ o = 0x10 ∧ w = s.errPos) →
    s.schedule = .host (.readReg o 4) :: moves →
    step s = .next (withReply (.readReg o 4) w (withMoves moves s))

/-- Rules R36 and R54: an access of another width, of another alignment or at an unassigned offset reads 0 and writes
nothing. -/
def Obligations.OddRegisterAccessesDoNothing : Prop :=
  ∀ (s : State) (o w : Nat) (moves : List Move),
    (w ≠ 4 ∨ o % 4 ≠ 0 ∨ o ∉ [0x00, 0x04, 0x08, 0x0C, 0x10]) →
    (s.schedule = .host (.readReg o w) :: moves →
      step s = .next (withReply (.readReg o w) 0 (withMoves moves s))) ∧
    (∀ v, s.schedule = .host (.writeReg o w v) :: moves → step s = .next (clearReply (withMoves moves s)))

/-- Rule R195, with the write column of rule R35: a write of IN_LEN stores all 32 bits outside BUSY and is ignored while
BUSY, and a read returns the stored value; a write of STATUS, OUT_LEN or ERR_POS is ignored. -/
def Obligations.RegisterWritesStoreOnlyInLen : Prop :=
  (∀ (s : State) (o : Nat) (v : Word) (moves : List Move), s.schedule = .host (.writeReg o 4 v) :: moves →
    (o = 0x04 ∨ o = 0x0C ∨ o = 0x10 → step s = .next (clearReply (withMoves moves s))) ∧
    (o = 0x08 → s.phase = .busy → step s = .next (clearReply (withMoves moves s))) ∧
    (o = 0x08 → s.phase ≠ .busy → step s = .next { clearReply (withMoves moves s) with inLen := v })) ∧
  (∀ (s : State) (moves : List Move), s.schedule = .host (.readReg 0x08 4) :: moves →
    step s = .next (withReply (.readReg 0x08 4) s.inLen (withMoves moves s)))

/-- Rule R197, with the host's side of rule R51: a host write of IN stores below IN_CAP outside BUSY and is ignored
otherwise; a host read returns the stored byte in any STATE, and 0x00 at or beyond IN_CAP. -/
def Obligations.HostAccessesToIn : Prop :=
  (∀ (s : State) (a : Nat) (v : Byte) (moves : List Move), s.schedule = .host (.writeIn a v) :: moves →
    (s.phase = .busy ∨ s.cfg.inCap ≤ a → step s = .next (clearReply (withMoves moves s))) ∧
    (s.phase ≠ .busy → a < s.cfg.inCap → ∃ t, step s = .next t ∧ inByte t a = v ∧
      (∀ b, b ≠ a → inByte t b = inByte s b) ∧ { t with inBuf := s.inBuf } = clearReply (withMoves moves s))) ∧
  (∀ (s : State) (a : Nat) (moves : List Move), s.schedule = .host (.readIn a) :: moves →
    (a < s.cfg.inCap →
      step s = .next (withReply (.readIn a) ((inByte s a).setWidth 32) (withMoves moves s))) ∧
    (s.cfg.inCap ≤ a → step s = .next (withReply (.readIn a) 0 (withMoves moves s))))

/-- Rule R198, with the host's table of rule R52: a host read of OUT returns the result byte while DONE below OUT_LEN and
0x00 at or beyond OUT_CAP; every other read answers with some byte, which no rule names; a host write of OUT is
ignored. -/
def Obligations.HostAccessesToOut : Prop :=
  (∀ (s : State) (a : Nat) (moves : List Move), s.schedule = .host (.readOut a) :: moves →
    (s.cfg.outCap ≤ a → step s = .next (withReply (.readOut a) 0 (withMoves moves s))) ∧
    (∀ b, s.phase = .done → a < s.outLen.toNat → a < s.cfg.outCap → outByte s a = some b →
      step s = .next (withReply (.readOut a) (b.setWidth 32) (withMoves moves s))) ∧
    ∃ (t : State) (x : Byte), step s = .next t ∧
      (t.reply = some ⟨.readOut a, x.setWidth 32⟩ ∨ t.reply = s.reply ∧ ∃ w, s.reply = some ⟨.readOut a, w⟩) ∧
      { t with schedule := s.schedule, reply := s.reply, outDraws := s.outDraws } = s) ∧
  (∀ (s : State) (a : Nat) (v : Byte) (moves : List Move), s.schedule = .host (.writeOut a v) :: moves →
    step s = .next (clearReply (withMoves moves s)))

/-- Rules R51, R65, R195 and R197 over all steps: the capacities never change, and, but for hardware reset, the bytes of
IN and IN_LEN change by no step while BUSY and by no core step at all. -/
def Obligations.InputIsFixedWhileBusy : Prop :=
  ∀ s t : State, step s = .next t →
    t.cfg = s.cfg ∧
    (s.schedule.head? ≠ some .reset → s.phase = .busy ∨ coreMoves s →
      t.inLen = s.inLen ∧ ∀ a, inByte t a = inByte s a)

/-- The use sequence of rule R243 from hardware reset: after LOAD IN, WRITE IN_LEN and START, the operation runs on
exactly the bytes loaded. -/
def Obligations.UseSequenceStartsTheOperation : Prop :=
  ∀ (c : Config) (input : List Byte) (v : Word), c.wf → input.length ≤ c.inCap → v.getLsbD 0 = true →
    ∃ t, Sys2Proof.core.run (input.length + 2)
        ({ State.resetWith c with schedule := useSequence input v } : State) = .next t ∧
      t.phase = .busy ∧ t.op = (if v.getLsbD 1 then Op.decode else Op.encode) ∧ t.ipos = 0 ∧ t.ocnt = 0 ∧
      t.schedule = [] ∧ t.inLen.toNat = input.length ∧
      ∀ (a : Nat) (h : a < input.length), inByte t a = input[a]

/-! ## Reset -/

/-- Rules R240 and R241: hardware reset, in any STATE, leaves the values of the table; the capacities are the machine's.
The contents of IN, OUT and HIST are unspecified and not stated. -/
def Obligations.HardwareResetValues : Prop :=
  (∀ (s : State) (moves : List Move), s.schedule = .reset :: moves →
    ∃ t, step s = .next t ∧ t.phase = .idle ∧ t.op = .encode ∧ t.ecode = 0 ∧ t.errPos = 0 ∧ t.inLen = 0 ∧
      t.outLen = 0 ∧ t.ipos = 0 ∧ t.ocnt = 0 ∧ t.bpos = 0 ∧ t.hfill = 0 ∧ statusWord t = 0 ∧ t.cfg = s.cfg) ∧
  (State.reset.phase = .idle ∧ statusWord State.reset = 0 ∧ State.reset.inLen = 0 ∧ State.reset.outLen = 0 ∧
    State.reset.errPos = 0 ∧ State.reset.ipos = 0 ∧ State.reset.ocnt = 0 ∧ State.reset.bpos = 0 ∧
    State.reset.hfill = 0)

/-! ## Invariants -/

/-- The invariants hold after hardware reset, for every legal pair of capacities. That Lockstep's clear clause holds there,
HIST reading 0x00, is the model's choice (DESIGN CHOICE, log 6): rule R240 leaves HIST unspecified after hardware reset, and
START clears it before any rule reads it. The capacities of State.reset are the model's choice too (log 1). -/
def Obligations.ResetMeetsTheInvariants : Prop :=
  (∀ c : Config, c.wf → Inv (State.resetWith c) ∧ Lockstep (State.resetWith c)) ∧
  Inv State.reset ∧ Lockstep State.reset

/-- Every step keeps the invariant of the registers and memories (rules R24, R25, R29, R32, R50, R204, R211, and R23
while an operation runs). -/
def Obligations.EveryStepKeepsTheInvariant : Prop :=
  ∀ s t : State, Inv s → step s = .next t → Inv t

/-- Rules R105, R106 and R143 over all steps: while an operation runs, the window holds the last bytes that the operation
consumed (ENCODE) or produced (DECODE). -/
def Obligations.EveryStepKeepsTheWindowInLockstep : Prop :=
  ∀ s t : State, Inv s → (s.phase = .busy → Lockstep s) → step s = .next t → t.phase = .busy → Lockstep t

/-! ## Whole operations -/

/-- Rule R244: an operation that runs alone ends, in DONE or ERROR, after at most one step per remaining input byte and
one Finish. -/
def Obligations.EveryOperationTerminates : Prop :=
  ∀ s : State, Inv s → s.phase = .busy → s.schedule = [] →
    ∃ k t, k ≤ s.inLen.toNat - s.ipos.toNat + 1 ∧ Sys2Proof.core.run k s = .next t ∧
      (t.phase = .done ∨ t.phase = .error)

/-- Rules R147 (item 3) and R224: with room for 2 bytes of output per byte of input, an ENCODE reaches DONE with at most
that many. -/
def Obligations.EncodeFinishesWithinTwiceTheInput : Prop :=
  ∀ (s : State) (r : BitVec 30), s.cfg.wf → s.phase ≠ .busy → s.schedule = [] →
    s.inLen.toNat ≤ s.cfg.inCap → 2 * s.inLen.toNat ≤ s.cfg.outCap →
    ∃ b k t, exec (.startEncode r) s = .next b ∧ Sys2Proof.core.run k b = .next t ∧
      t.phase = .done ∧ t.op = .encode ∧ t.outLen.toNat ≤ 2 * s.inLen.toNat ∧ t.ipos = s.inLen

/-- Rule R170: decoding an encoding returns the input. Unbounded capacities are read as capacities large enough never to
bind: 2 bytes of output per byte of input on the ENCODE side, the input's length on the DECODE side. -/
def Obligations.DecodingAnEncodingReturnsTheInput : Prop :=
  ∀ (s : State) (r q : BitVec 30), s.cfg.wf → s.phase ≠ .busy → s.schedule = [] →
    s.inLen.toNat ≤ s.cfg.inCap → 2 * s.inLen.toNat ≤ s.cfg.outCap →
    ∃ b k e, exec (.startEncode r) s = .next b ∧ Sys2Proof.core.run k b = .next e ∧ e.phase = .done ∧
      ∀ d : State, d.cfg.wf → d.phase ≠ .busy → d.schedule = [] → d.inLen = e.outLen →
        d.inLen.toNat ≤ d.cfg.inCap → s.inLen.toNat ≤ d.cfg.outCap →
        (∀ a < e.outLen.toNat, some (inByte d a) = outByte e a) →
        ∃ c n f, exec (.startDecode q) d = .next c ∧ Sys2Proof.core.run n c = .next f ∧ f.phase = .done ∧
          f.outLen = s.inLen ∧ ∀ a < s.inLen.toNat, outByte f a = some (inByte s a)

/-- Rule R242: an operation is a function of IN[0..IN_LEN-1] and OP alone (and of OUT_CAP, which no rule lets it exceed):
from two states that agree on these, the runs agree at every step. -/
def Obligations.OperationsDependOnTheirInputAlone : Prop :=
  ∀ (s t b c u : State) (i : Instr) (r : BitVec 30) (k : Nat),
    (i = .startEncode r ∨ i = .startDecode r) → s.cfg.wf →
    s.phase ≠ .busy → t.phase ≠ .busy → s.schedule = [] → t.schedule = [] →
    s.cfg.outCap = t.cfg.outCap → s.inLen = t.inLen →
    s.inLen.toNat ≤ s.cfg.inCap → t.inLen.toNat ≤ t.cfg.inCap →
    (∀ a < s.inLen.toNat, inByte s a = inByte t a) →
    exec i s = .next b → exec i t = .next c → Sys2Proof.core.run k b = .next u →
    ∃ v, Sys2Proof.core.run k c = .next v ∧ SameProgress u v
end

