-- ==== Sys2Proof/Laws/Decode.lean ====
section
/-! SUPPORT. One lemma per field operation of the decoder and the encoder (rule R74): the offset's two halves, taken apart
and put together. -/

namespace Sys2Proof

theorem assembleOffset_toNat (hi lo : Byte) : (assembleOffset hi lo).toNat = hi.toNat * 256 + lo.toNat := by
  have := hi.isLt
  have := lo.isLt
  simp only [assembleOffset, BitVec.toNat_add, BitVec.toNat_mul, BitVec.toNat_setWidth, BitVec.toNat_ofNat]
  omega

theorem offsetHigh_toNat (off : BitVec 16) : (offsetHigh off).toNat = off.toNat / 256 := by
  have := off.isLt
  simp only [offsetHigh, BitVec.extractLsb'_toNat, Nat.shiftRight_eq_div_pow]
  omega

theorem offsetLow_toNat (off : BitVec 16) : (offsetLow off).toNat = off.toNat % 256 := by
  simp only [offsetLow, BitVec.extractLsb'_toNat, Nat.shiftRight_eq_div_pow]
  omega

@[simp] theorem offsetHigh_assembleOffset (hi lo : Byte) : offsetHigh (assembleOffset hi lo) = hi := by
  apply BitVec.eq_of_toNat_eq
  have := lo.isLt
  rw [offsetHigh_toNat, assembleOffset_toNat]
  omega

@[simp] theorem offsetLow_assembleOffset (hi lo : Byte) : offsetLow (assembleOffset hi lo) = lo := by
  apply BitVec.eq_of_toNat_eq
  have := lo.isLt
  rw [offsetLow_toNat, assembleOffset_toNat]
  omega

@[simp] theorem assembleOffset_offset (off : BitVec 16) : assembleOffset (offsetHigh off) (offsetLow off) = off := by
  apply BitVec.eq_of_toNat_eq
  rw [assembleOffset_toNat, offsetHigh_toNat, offsetLow_toNat]
  omega

end Sys2Proof
end

