-- ==== Sys2Proof/Laws/Memory.lean ====
section
/-! SUPPORT. The laws of the byte spaces: a read after a write, and the canonical form that every memory operation
keeps. -/

namespace Sys2Proof.Machine

@[simp] theorem Memory.read_nil (k : Nat) : Memory.read [] k = none := rfl

@[simp] theorem Memory.read_cons (a : Nat) (v : Byte) (m : Memory) (k : Nat) :
    Memory.read ((a, v) :: m) k = if k = a then some v else Memory.read m k := rfl

/-- A read after an insertion. -/
theorem Memory.read_insert (m : Memory) (k : Nat) (v : Byte) (a : Nat) :
    Memory.read (Memory.insert m k v) a = if a = k then some v else Memory.read m a := by
  induction m with
  | nil => simp [Memory.insert]
  | cons c m ih =>
    obtain ⟨b, w⟩ := c
    unfold Memory.insert
    split
    · simp
    · split
      · subst_vars
        simp only [read_cons]
        split <;> simp_all
      · simp only [read_cons, ih]
        split <;> split <;> simp_all

/-- A read after an erasure. -/
theorem Memory.read_erase (m : Memory) (k a : Nat) :
    Memory.read (Memory.erase m k) a = if a = k then none else Memory.read m a := by
  induction m with
  | nil => simp [Memory.erase]
  | cons c m ih =>
    obtain ⟨b, w⟩ := c
    simp only [Memory.erase, List.filter_cons] at ih ⊢
    split
    · rw [read_cons, ih, read_cons]
      split <;> simp_all
    · rw [ih, read_cons]
      split <;> simp_all

/-- A read after a write, with an unlisted address read as what it holds: the value written there, every other address
as before. -/
theorem Memory.read_write (sp : Space) (m : Memory) (k : Nat) (v : Byte) (a : Nat) :
    (Memory.read (Memory.write sp m k v) a).or sp.unlisted =
      if a = k then some v else (Memory.read m a).or sp.unlisted := by
  unfold Memory.write
  split
  · rename_i h
    rw [read_erase]
    split <;> simp [h]
  · rw [read_insert]
    split <;> simp

@[simp] theorem Space.unlisted_input : Space.unlisted .input = none := rfl
@[simp] theorem Space.unlisted_output : Space.unlisted .output = none := rfl
@[simp] theorem Space.unlisted_history : Space.unlisted .history = some 0x00#8 := rfl

/-- IN after a write. -/
theorem Memory.read_write_input (m : Memory) (k : Nat) (v : Byte) (a : Nat) :
    Memory.read (Memory.write .input m k v) a = if a = k then some v else Memory.read m a := by
  simpa using Memory.read_write .input m k v a

/-- OUT after a write. -/
theorem Memory.read_write_output (m : Memory) (k : Nat) (v : Byte) (a : Nat) :
    Memory.read (Memory.write .output m k v) a = if a = k then some v else Memory.read m a := by
  simpa using Memory.read_write .output m k v a

/-- HIST after a write, its unlisted entries read as 0x00. -/
theorem Memory.read_write_history (m : Memory) (k : Nat) (v : Byte) (a : Nat) :
    (Memory.read (Memory.write .history m k v) a).getD 0x00#8 =
      if a = k then v else (Memory.read m a).getD 0x00#8 := by
  have h := Memory.read_write .history m k v a
  simp only [Space.unlisted_history] at h
  have g : ∀ o : Option Byte, o.getD 0x00#8 = (o.or (some 0x00#8)).getD 0x00#8 := by
    intro o; cases o <;> rfl
  rw [g, h, g (Memory.read m a)]
  split <;> rfl

/-! ## The canonical form -/

theorem Memory.mem_insert {m : Memory} {k : Nat} {v : Byte} {c : Host.Cell} (h : c ∈ Memory.insert m k v) :
    c = (k, v) ∨ c ∈ m := by
  induction m with
  | nil => simpa [Memory.insert] using h
  | cons d m ih =>
    obtain ⟨b, w⟩ := d
    unfold Memory.insert at h
    split at h
    · simpa using h
    · split at h <;> simp only [List.mem_cons] at h ⊢
      · tauto
      · rcases h with h | h
        · tauto
        · rcases ih h with h | h <;> tauto

theorem Memory.insert_rising {m : Memory} (h : m.Pairwise (fun c d => c.1 < d.1)) (k : Nat) (v : Byte) :
    (Memory.insert m k v).Pairwise (fun c d => c.1 < d.1) := by
  induction m with
  | nil => simp [Memory.insert]
  | cons d m ih =>
    obtain ⟨b, w⟩ := d
    rw [List.pairwise_cons] at h
    unfold Memory.insert
    split
    · rename_i hk
      refine List.pairwise_cons.2 ⟨?_, List.pairwise_cons.2 h⟩
      intro c hc
      rcases List.mem_cons.1 hc with rfl | hc
      · exact hk
      · exact Nat.lt_trans hk (h.1 c hc)
    · split
      · subst_vars
        exact List.pairwise_cons.2 h
      · refine List.pairwise_cons.2 ⟨?_, ih h.2⟩
        intro c hc
        rcases Memory.mem_insert hc with rfl | hc
        · simp only; omega
        · exact h.1 c hc

/-- Every write keeps the canonical form. -/
theorem Memory.write_wf {sp : Space} {m : Memory} (h : Memory.wf sp m) (k : Nat) (v : Byte) :
    Memory.wf sp (Memory.write sp m k v) := by
  unfold Memory.write
  split
  · exact ⟨h.1.filter _, fun c hc => h.2 c (List.mem_filter.1 hc).1⟩
  · rename_i hv
    refine ⟨Memory.insert_rising h.1 k v, fun c hc => ?_⟩
    rcases Memory.mem_insert hc with rfl | hc
    · exact hv
    · exact h.2 c hc

/-- A write inside a space's size keeps every listed address inside it. -/
theorem Memory.write_below {sp : Space} {m : Memory} {size : Nat} (h : Memory.below m size) {k : Nat} (hk : k < size)
    (v : Byte) : Memory.below (Memory.write sp m k v) size := by
  intro c hc
  unfold Memory.write at hc
  split at hc
  · exact h c (List.mem_filter.1 hc).1
  · rcases Memory.mem_insert hc with rfl | hc
    · exact hk
    · exact h c hc

theorem Memory.nil_wf (sp : Space) : Memory.wf sp [] := ⟨List.Pairwise.nil, by simp⟩

/-- Two lists with rising addresses that read alike are equal: equal memories are equal data. -/
theorem Memory.ext_of_read {m n : Memory} (hm : m.Pairwise (fun c d => c.1 < d.1))
    (hn : n.Pairwise (fun c d => c.1 < d.1)) (h : ∀ a, Memory.read m a = Memory.read n a) : m = n := by
  have none_of_lt : ∀ (m : Memory) (a : Nat), (∀ c ∈ m, a < c.1) → Memory.read m a = none := by
    intro m a
    induction m with
    | nil => simp
    | cons c m ih =>
      intro hc
      obtain ⟨b, w⟩ := c
      have hb : a < b := hc (b, w) (by simp)
      rw [Memory.read_cons, if_neg (by omega)]
      exact ih fun c hm => hc c (by simp [hm])
  induction m generalizing n with
  | nil =>
    cases n with
    | nil => rfl
    | cons c n => obtain ⟨b, w⟩ := c; simpa using h b
  | cons c m ih =>
    obtain ⟨a, v⟩ := c
    rw [List.pairwise_cons] at hm
    cases n with
    | nil => simpa using h a
    | cons d n =>
      obtain ⟨b, w⟩ := d
      rw [List.pairwise_cons] at hn
      have hab : a = b := by
        rcases Nat.lt_trichotomy a b with hlt | heq | hlt
        · have := h a
          rw [Memory.read_cons, if_pos rfl, Memory.read_cons, if_neg (by omega),
            none_of_lt n a fun c hc => Nat.lt_trans hlt (hn.1 c hc)] at this
          simp at this
        · exact heq
        · have := h b
          rw [Memory.read_cons, if_neg (by omega), Memory.read_cons, if_pos rfl,
            none_of_lt m b fun c hc => Nat.lt_trans hlt (hm.1 c hc)] at this
          simp at this
      subst hab
      have hv : v = w := by simpa using h a
      subst hv
      congr 1
      refine ih hm.2 hn.2 fun x => ?_
      by_cases hx : x = a
      · subst hx
        rw [none_of_lt m x hm.1, none_of_lt n x hn.1]
      · simpa [hx] using h x

end Sys2Proof.Machine
end

