-- ==== Sys2Proof/Laws/State.lean ====
section
/-! SUPPORT. One lemma per field of State per named update of Machine/Ops.lean: what the update leaves in the field. -/

namespace Sys2Proof.Machine

/-! ## histPush -/

@[simp] theorem histPush_cfg (v : Byte) (s : State) :
    (histPush v s).cfg = s.cfg := rfl
@[simp] theorem histPush_hist (v : Byte) (s : State) :
    (histPush v s).hist = Memory.write .history s.hist s.bpos.toNat v := rfl
@[simp] theorem histPush_bpos (v : Byte) (s : State) :
    (histPush v s).bpos = s.bpos + 1 := rfl
@[simp] theorem histPush_hfill (v : Byte) (s : State) :
    (histPush v s).hfill = BitVec.ofNat 13 (min (s.hfill.toNat + 1) W) := rfl
@[simp] theorem histPush_ipos (v : Byte) (s : State) :
    (histPush v s).ipos = s.ipos := rfl
@[simp] theorem histPush_ocnt (v : Byte) (s : State) :
    (histPush v s).ocnt = s.ocnt := rfl
@[simp] theorem histPush_op (v : Byte) (s : State) :
    (histPush v s).op = s.op := rfl
@[simp] theorem histPush_phase (v : Byte) (s : State) :
    (histPush v s).phase = s.phase := rfl
@[simp] theorem histPush_ecode (v : Byte) (s : State) :
    (histPush v s).ecode = s.ecode := rfl
@[simp] theorem histPush_errPos (v : Byte) (s : State) :
    (histPush v s).errPos = s.errPos := rfl
@[simp] theorem histPush_inLen (v : Byte) (s : State) :
    (histPush v s).inLen = s.inLen := rfl
@[simp] theorem histPush_outLen (v : Byte) (s : State) :
    (histPush v s).outLen = s.outLen := rfl
@[simp] theorem histPush_inBuf (v : Byte) (s : State) :
    (histPush v s).inBuf = s.inBuf := rfl
@[simp] theorem histPush_outBuf (v : Byte) (s : State) :
    (histPush v s).outBuf = s.outBuf := rfl
@[simp] theorem histPush_resetCount (v : Byte) (s : State) :
    (histPush v s).resetCount = s.resetCount := rfl
@[simp] theorem histPush_outDraws (v : Byte) (s : State) :
    (histPush v s).outDraws = s.outDraws := rfl
@[simp] theorem histPush_reply (v : Byte) (s : State) :
    (histPush v s).reply = s.reply := rfl
@[simp] theorem histPush_schedule (v : Byte) (s : State) :
    (histPush v s).schedule = s.schedule := rfl

/-! ## putOut -/

@[simp] theorem putOut_cfg (v : Byte) (s : State) :
    (putOut v s).cfg = s.cfg := rfl
@[simp] theorem putOut_hist (v : Byte) (s : State) :
    (putOut v s).hist = s.hist := rfl
@[simp] theorem putOut_bpos (v : Byte) (s : State) :
    (putOut v s).bpos = s.bpos := rfl
@[simp] theorem putOut_hfill (v : Byte) (s : State) :
    (putOut v s).hfill = s.hfill := rfl
@[simp] theorem putOut_ipos (v : Byte) (s : State) :
    (putOut v s).ipos = s.ipos := rfl
@[simp] theorem putOut_ocnt (v : Byte) (s : State) :
    (putOut v s).ocnt = s.ocnt + 1 := rfl
@[simp] theorem putOut_op (v : Byte) (s : State) :
    (putOut v s).op = s.op := rfl
@[simp] theorem putOut_phase (v : Byte) (s : State) :
    (putOut v s).phase = s.phase := rfl
@[simp] theorem putOut_ecode (v : Byte) (s : State) :
    (putOut v s).ecode = s.ecode := rfl
@[simp] theorem putOut_errPos (v : Byte) (s : State) :
    (putOut v s).errPos = s.errPos := rfl
@[simp] theorem putOut_inLen (v : Byte) (s : State) :
    (putOut v s).inLen = s.inLen := rfl
@[simp] theorem putOut_outLen (v : Byte) (s : State) :
    (putOut v s).outLen = s.outLen := rfl
@[simp] theorem putOut_inBuf (v : Byte) (s : State) :
    (putOut v s).inBuf = s.inBuf := rfl
@[simp] theorem putOut_outBuf (v : Byte) (s : State) :
    (putOut v s).outBuf = Memory.write .output s.outBuf s.ocnt.toNat v := rfl
@[simp] theorem putOut_resetCount (v : Byte) (s : State) :
    (putOut v s).resetCount = s.resetCount := rfl
@[simp] theorem putOut_outDraws (v : Byte) (s : State) :
    (putOut v s).outDraws = s.outDraws := rfl
@[simp] theorem putOut_reply (v : Byte) (s : State) :
    (putOut v s).reply = s.reply := rfl
@[simp] theorem putOut_schedule (v : Byte) (s : State) :
    (putOut v s).schedule = s.schedule := rfl

/-! ## advance -/

@[simp] theorem advance_cfg (n : Nat) (s : State) :
    (advance n s).cfg = s.cfg := rfl
@[simp] theorem advance_hist (n : Nat) (s : State) :
    (advance n s).hist = s.hist := rfl
@[simp] theorem advance_bpos (n : Nat) (s : State) :
    (advance n s).bpos = s.bpos := rfl
@[simp] theorem advance_hfill (n : Nat) (s : State) :
    (advance n s).hfill = s.hfill := rfl
@[simp] theorem advance_ipos (n : Nat) (s : State) :
    (advance n s).ipos = s.ipos + BitVec.ofNat 32 n := rfl
@[simp] theorem advance_ocnt (n : Nat) (s : State) :
    (advance n s).ocnt = s.ocnt := rfl
@[simp] theorem advance_op (n : Nat) (s : State) :
    (advance n s).op = s.op := rfl
@[simp] theorem advance_phase (n : Nat) (s : State) :
    (advance n s).phase = s.phase := rfl
@[simp] theorem advance_ecode (n : Nat) (s : State) :
    (advance n s).ecode = s.ecode := rfl
@[simp] theorem advance_errPos (n : Nat) (s : State) :
    (advance n s).errPos = s.errPos := rfl
@[simp] theorem advance_inLen (n : Nat) (s : State) :
    (advance n s).inLen = s.inLen := rfl
@[simp] theorem advance_outLen (n : Nat) (s : State) :
    (advance n s).outLen = s.outLen := rfl
@[simp] theorem advance_inBuf (n : Nat) (s : State) :
    (advance n s).inBuf = s.inBuf := rfl
@[simp] theorem advance_outBuf (n : Nat) (s : State) :
    (advance n s).outBuf = s.outBuf := rfl
@[simp] theorem advance_resetCount (n : Nat) (s : State) :
    (advance n s).resetCount = s.resetCount := rfl
@[simp] theorem advance_outDraws (n : Nat) (s : State) :
    (advance n s).outDraws = s.outDraws := rfl
@[simp] theorem advance_reply (n : Nat) (s : State) :
    (advance n s).reply = s.reply := rfl
@[simp] theorem advance_schedule (n : Nat) (s : State) :
    (advance n s).schedule = s.schedule := rfl

/-! ## abort -/

@[simp] theorem abort_cfg (e : ErrCode) (pos : Word) (s : State) :
    (abort e pos s).cfg = s.cfg := rfl
@[simp] theorem abort_hist (e : ErrCode) (pos : Word) (s : State) :
    (abort e pos s).hist = s.hist := rfl
@[simp] theorem abort_bpos (e : ErrCode) (pos : Word) (s : State) :
    (abort e pos s).bpos = s.bpos := rfl
@[simp] theorem abort_hfill (e : ErrCode) (pos : Word) (s : State) :
    (abort e pos s).hfill = s.hfill := rfl
@[simp] theorem abort_ipos (e : ErrCode) (pos : Word) (s : State) :
    (abort e pos s).ipos = s.ipos := rfl
@[simp] theorem abort_ocnt (e : ErrCode) (pos : Word) (s : State) :
    (abort e pos s).ocnt = s.ocnt := rfl
@[simp] theorem abort_op (e : ErrCode) (pos : Word) (s : State) :
    (abort e pos s).op = s.op := rfl
@[simp] theorem abort_phase (e : ErrCode) (pos : Word) (s : State) :
    (abort e pos s).phase = .error := rfl
@[simp] theorem abort_ecode (e : ErrCode) (pos : Word) (s : State) :
    (abort e pos s).ecode = e.code := rfl
@[simp] theorem abort_errPos (e : ErrCode) (pos : Word) (s : State) :
    (abort e pos s).errPos = pos := rfl
@[simp] theorem abort_inLen (e : ErrCode) (pos : Word) (s : State) :
    (abort e pos s).inLen = s.inLen := rfl
@[simp] theorem abort_outLen (e : ErrCode) (pos : Word) (s : State) :
    (abort e pos s).outLen = 0 := rfl
@[simp] theorem abort_inBuf (e : ErrCode) (pos : Word) (s : State) :
    (abort e pos s).inBuf = s.inBuf := rfl
@[simp] theorem abort_outBuf (e : ErrCode) (pos : Word) (s : State) :
    (abort e pos s).outBuf = s.outBuf := rfl
@[simp] theorem abort_resetCount (e : ErrCode) (pos : Word) (s : State) :
    (abort e pos s).resetCount = s.resetCount := rfl
@[simp] theorem abort_outDraws (e : ErrCode) (pos : Word) (s : State) :
    (abort e pos s).outDraws = s.outDraws := rfl
@[simp] theorem abort_reply (e : ErrCode) (pos : Word) (s : State) :
    (abort e pos s).reply = s.reply := rfl
@[simp] theorem abort_schedule (e : ErrCode) (pos : Word) (s : State) :
    (abort e pos s).schedule = s.schedule := rfl

/-! ## clearWindow -/

@[simp] theorem clearWindow_cfg (s : State) :
    (clearWindow s).cfg = s.cfg := rfl
@[simp] theorem clearWindow_hist (s : State) :
    (clearWindow s).hist = [] := rfl
@[simp] theorem clearWindow_bpos (s : State) :
    (clearWindow s).bpos = 0 := rfl
@[simp] theorem clearWindow_hfill (s : State) :
    (clearWindow s).hfill = 0 := rfl
@[simp] theorem clearWindow_ipos (s : State) :
    (clearWindow s).ipos = s.ipos := rfl
@[simp] theorem clearWindow_ocnt (s : State) :
    (clearWindow s).ocnt = s.ocnt := rfl
@[simp] theorem clearWindow_op (s : State) :
    (clearWindow s).op = s.op := rfl
@[simp] theorem clearWindow_phase (s : State) :
    (clearWindow s).phase = s.phase := rfl
@[simp] theorem clearWindow_ecode (s : State) :
    (clearWindow s).ecode = s.ecode := rfl
@[simp] theorem clearWindow_errPos (s : State) :
    (clearWindow s).errPos = s.errPos := rfl
@[simp] theorem clearWindow_inLen (s : State) :
    (clearWindow s).inLen = s.inLen := rfl
@[simp] theorem clearWindow_outLen (s : State) :
    (clearWindow s).outLen = s.outLen := rfl
@[simp] theorem clearWindow_inBuf (s : State) :
    (clearWindow s).inBuf = s.inBuf := rfl
@[simp] theorem clearWindow_outBuf (s : State) :
    (clearWindow s).outBuf = s.outBuf := rfl
@[simp] theorem clearWindow_resetCount (s : State) :
    (clearWindow s).resetCount = s.resetCount := rfl
@[simp] theorem clearWindow_outDraws (s : State) :
    (clearWindow s).outDraws = s.outDraws := rfl
@[simp] theorem clearWindow_reply (s : State) :
    (clearWindow s).reply = s.reply := rfl
@[simp] theorem clearWindow_schedule (s : State) :
    (clearWindow s).schedule = s.schedule := rfl

/-! ## finish -/

@[simp] theorem finish_cfg (s : State) :
    (finish s).cfg = s.cfg := rfl
@[simp] theorem finish_hist (s : State) :
    (finish s).hist = s.hist := rfl
@[simp] theorem finish_bpos (s : State) :
    (finish s).bpos = s.bpos := rfl
@[simp] theorem finish_hfill (s : State) :
    (finish s).hfill = s.hfill := rfl
@[simp] theorem finish_ipos (s : State) :
    (finish s).ipos = s.ipos := rfl
@[simp] theorem finish_ocnt (s : State) :
    (finish s).ocnt = s.ocnt := rfl
@[simp] theorem finish_op (s : State) :
    (finish s).op = s.op := rfl
@[simp] theorem finish_phase (s : State) :
    (finish s).phase = .done := rfl
@[simp] theorem finish_ecode (s : State) :
    (finish s).ecode = s.ecode := rfl
@[simp] theorem finish_errPos (s : State) :
    (finish s).errPos = s.errPos := rfl
@[simp] theorem finish_inLen (s : State) :
    (finish s).inLen = s.inLen := rfl
@[simp] theorem finish_outLen (s : State) :
    (finish s).outLen = s.ocnt := rfl
@[simp] theorem finish_inBuf (s : State) :
    (finish s).inBuf = s.inBuf := rfl
@[simp] theorem finish_outBuf (s : State) :
    (finish s).outBuf = s.outBuf := rfl
@[simp] theorem finish_resetCount (s : State) :
    (finish s).resetCount = s.resetCount := rfl
@[simp] theorem finish_outDraws (s : State) :
    (finish s).outDraws = s.outDraws := rfl
@[simp] theorem finish_reply (s : State) :
    (finish s).reply = s.reply := rfl
@[simp] theorem finish_schedule (s : State) :
    (finish s).schedule = s.schedule := rfl

/-! ## withMoves -/

@[simp] theorem withMoves_cfg (ms : List Move) (s : State) :
    (withMoves ms s).cfg = s.cfg := rfl
@[simp] theorem withMoves_hist (ms : List Move) (s : State) :
    (withMoves ms s).hist = s.hist := rfl
@[simp] theorem withMoves_bpos (ms : List Move) (s : State) :
    (withMoves ms s).bpos = s.bpos := rfl
@[simp] theorem withMoves_hfill (ms : List Move) (s : State) :
    (withMoves ms s).hfill = s.hfill := rfl
@[simp] theorem withMoves_ipos (ms : List Move) (s : State) :
    (withMoves ms s).ipos = s.ipos := rfl
@[simp] theorem withMoves_ocnt (ms : List Move) (s : State) :
    (withMoves ms s).ocnt = s.ocnt := rfl
@[simp] theorem withMoves_op (ms : List Move) (s : State) :
    (withMoves ms s).op = s.op := rfl
@[simp] theorem withMoves_phase (ms : List Move) (s : State) :
    (withMoves ms s).phase = s.phase := rfl
@[simp] theorem withMoves_ecode (ms : List Move) (s : State) :
    (withMoves ms s).ecode = s.ecode := rfl
@[simp] theorem withMoves_errPos (ms : List Move) (s : State) :
    (withMoves ms s).errPos = s.errPos := rfl
@[simp] theorem withMoves_inLen (ms : List Move) (s : State) :
    (withMoves ms s).inLen = s.inLen := rfl
@[simp] theorem withMoves_outLen (ms : List Move) (s : State) :
    (withMoves ms s).outLen = s.outLen := rfl
@[simp] theorem withMoves_inBuf (ms : List Move) (s : State) :
    (withMoves ms s).inBuf = s.inBuf := rfl
@[simp] theorem withMoves_outBuf (ms : List Move) (s : State) :
    (withMoves ms s).outBuf = s.outBuf := rfl
@[simp] theorem withMoves_resetCount (ms : List Move) (s : State) :
    (withMoves ms s).resetCount = s.resetCount := rfl
@[simp] theorem withMoves_outDraws (ms : List Move) (s : State) :
    (withMoves ms s).outDraws = s.outDraws := rfl
@[simp] theorem withMoves_reply (ms : List Move) (s : State) :
    (withMoves ms s).reply = s.reply := rfl
@[simp] theorem withMoves_schedule (ms : List Move) (s : State) :
    (withMoves ms s).schedule = ms := rfl

/-! ## clearReply -/

@[simp] theorem clearReply_cfg (s : State) :
    (clearReply s).cfg = s.cfg := rfl
@[simp] theorem clearReply_hist (s : State) :
    (clearReply s).hist = s.hist := rfl
@[simp] theorem clearReply_bpos (s : State) :
    (clearReply s).bpos = s.bpos := rfl
@[simp] theorem clearReply_hfill (s : State) :
    (clearReply s).hfill = s.hfill := rfl
@[simp] theorem clearReply_ipos (s : State) :
    (clearReply s).ipos = s.ipos := rfl
@[simp] theorem clearReply_ocnt (s : State) :
    (clearReply s).ocnt = s.ocnt := rfl
@[simp] theorem clearReply_op (s : State) :
    (clearReply s).op = s.op := rfl
@[simp] theorem clearReply_phase (s : State) :
    (clearReply s).phase = s.phase := rfl
@[simp] theorem clearReply_ecode (s : State) :
    (clearReply s).ecode = s.ecode := rfl
@[simp] theorem clearReply_errPos (s : State) :
    (clearReply s).errPos = s.errPos := rfl
@[simp] theorem clearReply_inLen (s : State) :
    (clearReply s).inLen = s.inLen := rfl
@[simp] theorem clearReply_outLen (s : State) :
    (clearReply s).outLen = s.outLen := rfl
@[simp] theorem clearReply_inBuf (s : State) :
    (clearReply s).inBuf = s.inBuf := rfl
@[simp] theorem clearReply_outBuf (s : State) :
    (clearReply s).outBuf = s.outBuf := rfl
@[simp] theorem clearReply_resetCount (s : State) :
    (clearReply s).resetCount = s.resetCount := rfl
@[simp] theorem clearReply_outDraws (s : State) :
    (clearReply s).outDraws = s.outDraws := rfl
@[simp] theorem clearReply_reply (s : State) :
    (clearReply s).reply = none := rfl
@[simp] theorem clearReply_schedule (s : State) :
    (clearReply s).schedule = s.schedule := rfl

/-! ## withReply -/

@[simp] theorem withReply_cfg (a : HostAccess) (v : Word) (s : State) :
    (withReply a v s).cfg = s.cfg := rfl
@[simp] theorem withReply_hist (a : HostAccess) (v : Word) (s : State) :
    (withReply a v s).hist = s.hist := rfl
@[simp] theorem withReply_bpos (a : HostAccess) (v : Word) (s : State) :
    (withReply a v s).bpos = s.bpos := rfl
@[simp] theorem withReply_hfill (a : HostAccess) (v : Word) (s : State) :
    (withReply a v s).hfill = s.hfill := rfl
@[simp] theorem withReply_ipos (a : HostAccess) (v : Word) (s : State) :
    (withReply a v s).ipos = s.ipos := rfl
@[simp] theorem withReply_ocnt (a : HostAccess) (v : Word) (s : State) :
    (withReply a v s).ocnt = s.ocnt := rfl
@[simp] theorem withReply_op (a : HostAccess) (v : Word) (s : State) :
    (withReply a v s).op = s.op := rfl
@[simp] theorem withReply_phase (a : HostAccess) (v : Word) (s : State) :
    (withReply a v s).phase = s.phase := rfl
@[simp] theorem withReply_ecode (a : HostAccess) (v : Word) (s : State) :
    (withReply a v s).ecode = s.ecode := rfl
@[simp] theorem withReply_errPos (a : HostAccess) (v : Word) (s : State) :
    (withReply a v s).errPos = s.errPos := rfl
@[simp] theorem withReply_inLen (a : HostAccess) (v : Word) (s : State) :
    (withReply a v s).inLen = s.inLen := rfl
@[simp] theorem withReply_outLen (a : HostAccess) (v : Word) (s : State) :
    (withReply a v s).outLen = s.outLen := rfl
@[simp] theorem withReply_inBuf (a : HostAccess) (v : Word) (s : State) :
    (withReply a v s).inBuf = s.inBuf := rfl
@[simp] theorem withReply_outBuf (a : HostAccess) (v : Word) (s : State) :
    (withReply a v s).outBuf = s.outBuf := rfl
@[simp] theorem withReply_resetCount (a : HostAccess) (v : Word) (s : State) :
    (withReply a v s).resetCount = s.resetCount := rfl
@[simp] theorem withReply_outDraws (a : HostAccess) (v : Word) (s : State) :
    (withReply a v s).outDraws = s.outDraws := rfl
@[simp] theorem withReply_reply (a : HostAccess) (v : Word) (s : State) :
    (withReply a v s).reply = some ⟨a, v⟩ := rfl
@[simp] theorem withReply_schedule (a : HostAccess) (v : Word) (s : State) :
    (withReply a v s).schedule = s.schedule := rfl

/-! ## hardwareReset -/

@[simp] theorem hardwareReset_cfg (s : State) :
    (hardwareReset s).cfg = s.cfg := rfl
@[simp] theorem hardwareReset_hist (s : State) :
    (hardwareReset s).hist = [] := rfl
@[simp] theorem hardwareReset_bpos (s : State) :
    (hardwareReset s).bpos = 0 := rfl
@[simp] theorem hardwareReset_hfill (s : State) :
    (hardwareReset s).hfill = 0 := rfl
@[simp] theorem hardwareReset_ipos (s : State) :
    (hardwareReset s).ipos = 0 := rfl
@[simp] theorem hardwareReset_ocnt (s : State) :
    (hardwareReset s).ocnt = 0 := rfl
@[simp] theorem hardwareReset_op (s : State) :
    (hardwareReset s).op = .encode := rfl
@[simp] theorem hardwareReset_phase (s : State) :
    (hardwareReset s).phase = .idle := rfl
@[simp] theorem hardwareReset_ecode (s : State) :
    (hardwareReset s).ecode = 0 := rfl
@[simp] theorem hardwareReset_errPos (s : State) :
    (hardwareReset s).errPos = 0 := rfl
@[simp] theorem hardwareReset_inLen (s : State) :
    (hardwareReset s).inLen = 0 := rfl
@[simp] theorem hardwareReset_outLen (s : State) :
    (hardwareReset s).outLen = 0 := rfl
@[simp] theorem hardwareReset_inBuf (s : State) :
    (hardwareReset s).inBuf = [] := rfl
@[simp] theorem hardwareReset_outBuf (s : State) :
    (hardwareReset s).outBuf = [] := rfl
@[simp] theorem hardwareReset_resetCount (s : State) :
    (hardwareReset s).resetCount = s.resetCount + 1 := rfl
@[simp] theorem hardwareReset_outDraws (s : State) :
    (hardwareReset s).outDraws = s.outDraws := rfl
@[simp] theorem hardwareReset_reply (s : State) :
    (hardwareReset s).reply = none := rfl
@[simp] theorem hardwareReset_schedule (s : State) :
    (hardwareReset s).schedule = s.schedule := rfl

end Sys2Proof.Machine
end

