-- ==== Sys2Proof/Laws/Ops.lean ====
section
/-! SUPPORT. One lemma per shared operation: what a read of IN, OUT or HIST returns after it, and what lists of pushes
and of output bytes leave. -/

namespace Sys2Proof.Machine

theorem W_eq : W = 4096 := rfl

/-! ## Reads after the named updates -/

/-- IN is read from its bytes and the reset count alone. -/
theorem inByte_congr {s t : State} (h : t.inBuf = s.inBuf) (g : t.resetCount = s.resetCount) (a : Nat) :
    inByte t a = inByte s a := by
  simp [inByte, h, g]

/-- OUT is read from its bytes alone. -/
theorem outByte_congr {s t : State} (h : t.outBuf = s.outBuf) (a : Nat) : outByte t a = outByte s a := by
  simp [outByte, h]

/-- HIST is read from its bytes alone. -/
theorem histRead_congr {s t : State} (h : t.hist = s.hist) (i : BitVec 12) : histRead t i = histRead s i := by
  simp [histRead, h]

@[simp] theorem inByte_histPush (v : Byte) (s : State) (a : Nat) : inByte (histPush v s) a = inByte s a := rfl
@[simp] theorem inByte_putOut (v : Byte) (s : State) (a : Nat) : inByte (putOut v s) a = inByte s a := rfl
@[simp] theorem inByte_advance (n : Nat) (s : State) (a : Nat) : inByte (advance n s) a = inByte s a := rfl
@[simp] theorem inByte_abort (e : ErrCode) (p : Word) (s : State) (a : Nat) : inByte (abort e p s) a = inByte s a := rfl
@[simp] theorem inByte_clearWindow (s : State) (a : Nat) : inByte (clearWindow s) a = inByte s a := rfl
@[simp] theorem inByte_finish (s : State) (a : Nat) : inByte (finish s) a = inByte s a := rfl
@[simp] theorem inByte_withMoves (ms : List Move) (s : State) (a : Nat) : inByte (withMoves ms s) a = inByte s a := rfl
@[simp] theorem inByte_clearReply (s : State) (a : Nat) : inByte (clearReply s) a = inByte s a := rfl
@[simp] theorem inByte_withReply (x : HostAccess) (v : Word) (s : State) (a : Nat) :
    inByte (withReply x v s) a = inByte s a := rfl

@[simp] theorem outByte_histPush (v : Byte) (s : State) (a : Nat) : outByte (histPush v s) a = outByte s a := rfl
@[simp] theorem outByte_advance (n : Nat) (s : State) (a : Nat) : outByte (advance n s) a = outByte s a := rfl
@[simp] theorem outByte_abort (e : ErrCode) (p : Word) (s : State) (a : Nat) :
    outByte (abort e p s) a = outByte s a := rfl
@[simp] theorem outByte_clearWindow (s : State) (a : Nat) : outByte (clearWindow s) a = outByte s a := rfl
@[simp] theorem outByte_finish (s : State) (a : Nat) : outByte (finish s) a = outByte s a := rfl
@[simp] theorem outByte_withMoves (ms : List Move) (s : State) (a : Nat) :
    outByte (withMoves ms s) a = outByte s a := rfl
@[simp] theorem outByte_clearReply (s : State) (a : Nat) : outByte (clearReply s) a = outByte s a := rfl
@[simp] theorem outByte_withReply (x : HostAccess) (v : Word) (s : State) (a : Nat) :
    outByte (withReply x v s) a = outByte s a := rfl

@[simp] theorem histRead_putOut (v : Byte) (s : State) (i : BitVec 12) : histRead (putOut v s) i = histRead s i := rfl
@[simp] theorem histRead_advance (n : Nat) (s : State) (i : BitVec 12) : histRead (advance n s) i = histRead s i := rfl
@[simp] theorem histRead_abort (e : ErrCode) (p : Word) (s : State) (i : BitVec 12) :
    histRead (abort e p s) i = histRead s i := rfl
@[simp] theorem histRead_clearWindow (s : State) (i : BitVec 12) : histRead (clearWindow s) i = 0x00#8 := rfl
@[simp] theorem histRead_finish (s : State) (i : BitVec 12) : histRead (finish s) i = histRead s i := rfl
@[simp] theorem histRead_withMoves (ms : List Move) (s : State) (i : BitVec 12) :
    histRead (withMoves ms s) i = histRead s i := rfl
@[simp] theorem histRead_clearReply (s : State) (i : BitVec 12) : histRead (clearReply s) i = histRead s i := rfl
@[simp] theorem histRead_withReply (x : HostAccess) (v : Word) (s : State) (i : BitVec 12) :
    histRead (withReply x v s) i = histRead s i := rfl

/-- OUT after one output byte. -/
theorem outByte_putOut (v : Byte) (s : State) (a : Nat) :
    outByte (putOut v s) a = if a = s.ocnt.toNat then some v else outByte s a := by
  simp [outByte, Memory.read_write_output]

/-- HIST after one push (rule R102). -/
theorem histRead_histPush (v : Byte) (s : State) (i : BitVec 12) :
    histRead (histPush v s) i = if i = s.bpos then v else histRead s i := by
  simp [histRead, Memory.read_write_history, BitVec.toNat_inj]

/-- HFILL after one push (rules R102, R104). -/
theorem histPush_hfill_toNat (v : Byte) (s : State) :
    (histPush v s).hfill.toNat = min (s.hfill.toNat + 1) W := by
  rw [histPush_hfill, BitVec.toNat_ofNat, W_eq]
  omega

/-- BPOS after one push (rules R102, R103). -/
theorem histPush_bpos_toNat (v : Byte) (s : State) :
    (histPush v s).bpos.toNat = (s.bpos.toNat + 1) % W := by
  rw [histPush_bpos, BitVec.toNat_add, W_eq]
  rfl

/-! ## Backward distances -/

/-- One push shifts every distance by one (rule R105). -/
theorem backRead_histPush (v : Byte) (s : State) (d : Nat) (h : 1 ≤ d) (hW : d ≤ W) :
    backRead (histPush v s) d = if d = 1 then v else backRead s (d - 1) := by
  have key : s.bpos + 1 - BitVec.ofNat 12 d = s.bpos - BitVec.ofNat 12 (d - 1) := by
    apply BitVec.eq_of_toNat_eq
    rw [W_eq] at hW
    have one : (1 : BitVec 12).toNat = 1 := rfl
    simp only [BitVec.toNat_sub, BitVec.toNat_add, BitVec.toNat_ofNat, one]
    omega
  simp only [backRead, backIndex, histPush_bpos, histRead_histPush, key]
  by_cases hd : d = 1
  · subst hd; simp
  · rw [if_neg hd, if_neg]
    intro hx
    have := congrArg BitVec.toNat hx
    rw [W_eq] at hW
    simp only [BitVec.toNat_sub, BitVec.toNat_ofNat] at this
    omega

/-- The reference byte of a candidate, outside the overlap case, stands at distance off - k (rule R121). -/
theorem refByte_eq_backRead (s : State) (off k : Nat) (h : k < off) : refByte s off k = backRead s (off - k) := by
  have key : s.bpos - BitVec.ofNat 12 off + BitVec.ofNat 12 k = s.bpos - BitVec.ofNat 12 (off - k) := by
    apply BitVec.eq_of_toNat_eq
    simp only [BitVec.toNat_sub, BitVec.toNat_add, BitVec.toNat_ofNat]
    omega
  simp [refByte, h, backRead, backIndex, key]

/-! ## Lists of pushes and of output bytes -/

@[simp] theorem pushAll_nil (s : State) : pushAll [] s = s := rfl
@[simp] theorem pushAll_cons (v : Byte) (vs : List Byte) (s : State) :
    pushAll (v :: vs) s = pushAll vs (histPush v s) := rfl
@[simp] theorem putAll_nil (s : State) : putAll [] s = s := rfl
@[simp] theorem putAll_cons (v : Byte) (vs : List Byte) (s : State) :
    putAll (v :: vs) s = putAll vs (putOut v s) := rfl

/-- Pushes change the window alone. -/
theorem pushAll_eq (vs : List Byte) (s : State) :
    pushAll vs s =
      { s with hist := (pushAll vs s).hist, bpos := (pushAll vs s).bpos, hfill := (pushAll vs s).hfill } := by
  induction vs generalizing s with
  | nil => rfl
  | cons v vs ih => rw [pushAll_cons, ih]; rfl

/-- Output bytes change OUT and OCNT alone. -/
theorem putAll_eq (vs : List Byte) (s : State) :
    putAll vs s = { s with outBuf := (putAll vs s).outBuf, ocnt := (putAll vs s).ocnt } := by
  induction vs generalizing s with
  | nil => rfl
  | cons v vs ih => rw [putAll_cons, ih]; rfl

theorem pushAll_append (us vs : List Byte) (s : State) : pushAll (us ++ vs) s = pushAll vs (pushAll us s) := by
  induction us generalizing s with
  | nil => rfl
  | cons u us ih => simp [ih]

theorem putAll_append (us vs : List Byte) (s : State) : putAll (us ++ vs) s = putAll vs (putAll us s) := by
  induction us generalizing s with
  | nil => rfl
  | cons u us ih => simp [ih]

/-- A push and an output byte touch different fields. -/
theorem histPush_putOut (u v : Byte) (s : State) : histPush u (putOut v s) = putOut v (histPush u s) := rfl

theorem histPush_putAll (u : Byte) (vs : List Byte) (s : State) :
    histPush u (putAll vs s) = putAll vs (histPush u s) := by
  induction vs generalizing s with
  | nil => rfl
  | cons v vs ih => simp [ih, histPush_putOut]

theorem pushAll_hfill (vs : List Byte) (s : State) (h : vs = [] → s.hfill.toNat ≤ W) :
    (pushAll vs s).hfill.toNat = min (s.hfill.toNat + vs.length) W := by
  induction vs generalizing s with
  | nil => simp [h]
  | cons v vs ih =>
    rw [pushAll_cons, ih _ (by rw [histPush_hfill_toNat]; omega), histPush_hfill_toNat, List.length_cons]
    omega

theorem pushAll_bpos (vs : List Byte) (s : State) :
    (pushAll vs s).bpos.toNat = (s.bpos.toNat + vs.length) % W := by
  induction vs generalizing s with
  | nil => simp [W_eq]; omega
  | cons v vs ih =>
    rw [pushAll_cons, ih, histPush_bpos_toNat, List.length_cons, W_eq]
    omega

/-- The window after a list of pushes, by backward distance (rule R105). -/
theorem backRead_pushAll (vs : List Byte) (s : State) (d : Nat) (h : 1 ≤ d) (hW : d ≤ W) :
    backRead (pushAll vs s) d =
      if hd : d ≤ vs.length then vs[vs.length - d]'(by omega) else backRead s (d - vs.length) := by
  induction vs generalizing s with
  | nil => rw [dif_neg (by simp; omega)]; rfl
  | cons v vs ih =>
    rw [pushAll_cons, ih]
    by_cases hd : d ≤ vs.length
    · rw [dif_pos hd, dif_pos (by simp; omega)]
      simp only [List.length_cons, List.getElem_cons]
      rw [dif_neg (by omega)]
      congr 1
      omega
    · rw [dif_neg hd, backRead_histPush _ _ _ (by omega) (by omega)]
      by_cases h1 : d - vs.length = 1
      · rw [if_pos h1, dif_pos (by simp; omega)]
        simp only [List.length_cons, List.getElem_cons]
        rw [dif_pos (by omega)]
      · rw [if_neg h1, dif_neg (by simp; omega)]
        congr 1

theorem putAll_ocnt (vs : List Byte) (s : State) : (putAll vs s).ocnt = s.ocnt + BitVec.ofNat 32 vs.length := by
  induction vs generalizing s with
  | nil => simp
  | cons v vs ih =>
    rw [putAll_cons, ih, putOut_ocnt, List.length_cons]
    apply BitVec.eq_of_toNat_eq
    have one : (1 : BitVec 32).toNat = 1 := rfl
    simp only [BitVec.toNat_add, BitVec.toNat_ofNat, one]
    omega

/-- OUT after a list of output bytes that OCNT has room for (rule R52). -/
theorem outByte_putAll (vs : List Byte) (s : State) (h : s.ocnt.toNat + vs.length < 2 ^ 32) (a : Nat) :
    outByte (putAll vs s) a =
      if s.ocnt.toNat ≤ a then (vs[a - s.ocnt.toNat]?).or (outByte s a) else outByte s a := by
  induction vs generalizing s with
  | nil => simp
  | cons v vs ih =>
    simp only [List.length_cons] at h
    have ho : (putOut v s).ocnt.toNat = s.ocnt.toNat + 1 := by
      rw [putOut_ocnt, BitVec.toNat_add]
      simp; omega
    rw [putAll_cons, ih _ (by omega), ho, outByte_putOut]
    by_cases h1 : s.ocnt.toNat ≤ a
    · by_cases h2 : a = s.ocnt.toNat
      · subst h2; simp
      · obtain ⟨j, hj⟩ : ∃ j, a = s.ocnt.toNat + (j + 1) := ⟨a - s.ocnt.toNat - 1, by omega⟩
        subst hj
        rw [if_pos (by omega), if_neg h2, if_pos h1, Nat.add_sub_cancel_left]
        have : s.ocnt.toNat + (j + 1) - (s.ocnt.toNat + 1) = j := by omega
        rw [this, List.getElem?_cons_succ]
    · rw [if_neg (by omega), if_neg (by omega), if_neg h1]

/-! ## The copy of a match -/

/-- The bytes that MATCH_COPY copies: byte k stands at distance off - k in the window, or is byte k - off of the copy
itself (rules R164, R166). -/
theorem matchCopy_eq (off : Nat) (h : 1 ≤ off) (hW : off ≤ W) (n : Nat) (s : State) :
    matchCopy off n s =
      pushAll ((List.range n).map (fun k => backRead s (off - k % off)))
        (putAll ((List.range n).map (fun k => backRead s (off - k % off))) s) := by
  have last : ∀ (n : Nat) (s : State), matchCopy off (n + 1) s = copyByte off (matchCopy off n s) := by
    intro n
    induction n with
    | zero => intro s; rfl
    | succ n ih => intro s; rw [matchCopy, ih (copyByte off s), matchCopy]
  have period : ∀ n : Nat, off ≤ n → (n - off) % off = n % off := by
    intro n hn
    conv_rhs => rw [← Nat.sub_add_cancel hn, Nat.add_mod_right]
  induction n with
  | zero => rfl
  | succ n ih =>
    rw [last, ih, List.range_succ, List.map_append, pushAll_append, putAll_append]
    have hb : backRead (pushAll ((List.range n).map fun k => backRead s (off - k % off))
        (putAll ((List.range n).map fun k => backRead s (off - k % off)) s)) off
        = backRead s (off - n % off) := by
      rw [backRead_pushAll _ _ _ h hW]
      by_cases hn : off ≤ n
      · rw [dif_pos (by simpa using hn)]
        simp [period n hn]
      · rw [dif_neg (by simpa using hn), Nat.mod_eq_of_lt (by omega)]
        have g : ∀ (vs : List Byte) (t : State) (d : Nat), backRead (putAll vs t) d = backRead t d := by
          intro vs t d
          rw [putAll_eq]; rfl
        rw [g, List.length_map, List.length_range]
    have comm : ∀ (v : Byte) (vs : List Byte) (t : State), putOut v (pushAll vs t) = pushAll vs (putOut v t) := by
      intro v vs
      induction vs with
      | nil => intro t; rfl
      | cons u vs ih2 => intro t; rw [pushAll_cons, ih2, pushAll_cons, histPush_putOut]
    simp only [copyByte, hb, List.map_cons, List.map_nil, putAll_cons, putAll_nil, pushAll_cons, pushAll_nil, comm]

end Sys2Proof.Machine
end

