-- ==== Sys2Proof/Laws/Detector.lean ====
section
/-! SUPPORT. What the loops of the match detector compute. -/

namespace Sys2Proof.Machine

/-- The inner loop from position k stops at the first mismatch or after the given number of positions. -/
theorem runFrom_spec (s : State) (off fuel k : Nat) :
    k ≤ runFrom s off fuel k ∧ runFrom s off fuel k ≤ k + fuel ∧
    (∀ j, k ≤ j → j < runFrom s off fuel k → lookahead s j = refByte s off j) ∧
    (runFrom s off fuel k < k + fuel →
      lookahead s (runFrom s off fuel k) ≠ refByte s off (runFrom s off fuel k)) := by
  induction fuel generalizing k with
  | zero => exact ⟨Nat.le_refl _, Nat.le_refl _, fun j h g => absurd g (by simp [runFrom]; omega), by simp [runFrom]⟩
  | succ fuel ih =>
    unfold runFrom
    split
    · rename_i heq
      obtain ⟨h1, h2, h3, h4⟩ := ih (k + 1)
      refine ⟨by omega, by omega, fun j hj hlt => ?_, fun hlt => h4 (by omega)⟩
      by_cases hjk : j = k
      · exact hjk ▸ heq
      · exact h3 j (by omega) hlt
    · rename_i hne
      exact ⟨Nat.le_refl _, by omega, fun j h g => by omega, fun _ => hne⟩

/-- L(off) never passes the lookahead (rule R123). -/
theorem runLength_le (s : State) (off : Nat) : runLength s off ≤ laLen s := by
  simpa [runLength] using (runFrom_spec s off (laLen s) 0).2.1

theorem laLen_le (s : State) : laLen s ≤ 18 ∧ laLen s ≤ s.inLen.toNat - s.ipos.toNat :=
  ⟨Nat.min_le_left _ _, Nat.min_le_right _ _⟩

/-- The outer loop over the first n candidates keeps the longest run and, among equals, the nearest offset. -/
theorem scan_spec (s : State) (n : Nat) :
    (∀ o, 1 ≤ o → o ≤ n → runLength s o ≤ (scan s n).2) ∧
    (1 ≤ (scan s n).2 → 1 ≤ (scan s n).1 ∧ (scan s n).1 ≤ n ∧ runLength s (scan s n).1 = (scan s n).2 ∧
      ∀ o, 1 ≤ o → o < (scan s n).1 → runLength s o < (scan s n).2) ∧
    ((scan s n).2 = 0 → (scan s n).1 = 0) := by
  induction n with
  | zero => exact ⟨fun o h g => absurd g (by omega), by simp [scan], by simp [scan]⟩
  | succ n ih =>
    obtain ⟨h1, h2, h3⟩ := ih
    simp only [scan]
    split
    · rename_i hlt
      refine ⟨fun o ho hn => ?_, fun _ => ⟨by omega, by simp, rfl, fun o ho hn => ?_⟩, fun h => by omega⟩
      · by_cases hon : o = n + 1
        · subst hon; exact Nat.le_refl _
        · exact Nat.le_trans (h1 o ho (by omega)) (Nat.le_of_lt hlt)
      · exact Nat.lt_of_le_of_lt (h1 o ho (by omega)) hlt
    · rename_i hge
      refine ⟨fun o ho hn => ?_, fun h => ?_, h3⟩
      · by_cases hon : o = n + 1
        · subst hon; omega
        · exact h1 o ho (by omega)
      · obtain ⟨a, b, c, d⟩ := h2 h
        exact ⟨a, by omega, c, d⟩

/-- The detector never reports more than the lookahead holds. -/
theorem scan_le (s : State) (n : Nat) : (scan s n).2 ≤ laLen s := by
  by_cases h : 1 ≤ (scan s n).2
  · obtain ⟨-, -, hr, -⟩ := (scan_spec s n).2.1 h
    exact hr ▸ runLength_le s _
  · omega

end Sys2Proof.Machine
end

