-- ==== Sys2Proof/Laws/PerInstr.lean ====
section
/-! SUPPORT. What holds of every instruction as syntax: its encoding has the width and the fixed bits of its row of
spec/opcode_table.json. -/

namespace Sys2Proof.Laws.FixedBits

/-- The row's width_bits. -/
def rowWidth : Instr → Nat
  | .lit _ => 16
  | .matchTok _ _ => 32
  | .startEncode _ => 32
  | .startDecode _ => 32
  | .ctrlNop _ => 32

/-- The row's one fixed field, (hi, lo, value). -/
def rowFixed : Instr → Nat × Nat × Nat
  | .lit _ => (15, 8, 0)
  | .matchTok _ _ => (31, 24, 1)
  | .startEncode _ => (1, 0, 1)
  | .startDecode _ => (1, 0, 3)
  | .ctrlNop _ => (0, 0, 0)

/-- An encoding as the number that the table's bit positions count in: stream bytes big-endian (rule R76), a CTRL value
as it is. -/
def number : Encoded → Nat
  | .stream bytes => bytes.foldl (fun n b => 256 * n + b.toNat) 0
  | .ctrl v => v.toNat

/-- How many bits an encoding has. -/
def width : Encoded → Nat
  | .stream bytes => 8 * bytes.length
  | .ctrl _ => 32

/-- The instruction's encoding has its row's width and its row's fixed bits. -/
def Statement (i : Instr) : Prop :=
  width (encode i) = rowWidth i ∧
  number (encode i) / 2 ^ (rowFixed i).2.1 % 2 ^ ((rowFixed i).1 + 1 - (rowFixed i).2.1) = (rowFixed i).2.2

theorem append_toNat (n m : Nat) (r : BitVec n) (b : BitVec m) : (r ++ b).toNat = r.toNat * 2 ^ m + b.toNat := by
  rw [BitVec.toNat_append, ← Nat.shiftLeft_add_eq_or_of_lt b.isLt, Nat.shiftLeft_eq]

theorem lit (v : Byte) : Statement (.lit v) := by
  have := v.isLt
  refine ⟨rfl, ?_⟩
  simp only [encode, number, rowFixed, List.foldl, BitVec.toNat_ofNat]
  omega

theorem matchTok (off : BitVec 16) (len : Byte) : Statement (.matchTok off len) := by
  have := len.isLt
  have := (offsetHigh off).isLt
  have := (offsetLow off).isLt
  refine ⟨rfl, ?_⟩
  simp only [encode, number, rowFixed, List.foldl, BitVec.toNat_ofNat]
  omega

theorem startEncode (r : BitVec 30) : Statement (.startEncode r) := by
  refine ⟨rfl, ?_⟩
  simp only [encode, number, rowFixed, append_toNat, BitVec.toNat_ofNat]
  omega

theorem startDecode (r : BitVec 30) : Statement (.startDecode r) := by
  refine ⟨rfl, ?_⟩
  simp only [encode, number, rowFixed, append_toNat, BitVec.toNat_ofNat]
  omega

theorem ctrlNop (r : BitVec 31) : Statement (.ctrlNop r) := by
  refine ⟨rfl, ?_⟩
  simp only [encode, number, rowFixed, append_toNat, BitVec.toNat_ofNat]
  omega

end Sys2Proof.Laws.FixedBits
end

