-- ==== Sys2Proof/Laws/Step.lean ====
section
/-! SUPPORT. Everything that one step can do, said once: the effects of the core's step and of the other agents' moves.
Invariants are proved from these and unfold no meaning. -/

namespace Sys2Proof.Machine

/-- What the core's step can do (rule R203): Finish, an abort, or one completed token. -/
inductive CoreEffect (s t : State) : Prop where
  /-- Rule R204. -/
  | finished (busy : s.phase = .busy) (atEnd : s.ipos = s.inLen) (eq : t = finish s)
  /-- Rule R215. -/
  | aborted (code : ErrCode) (busy : s.phase = .busy) (inside : s.ipos.toNat < s.inLen.toNat)
      (notStart : code ≠ .capacityIn) (encode : s.op = .encode → code = .capacityOut) (eq : t = abort code s.ipos s)
  /-- Rules R141, R142: n input bytes are consumed and pushed. -/
  | emitted (out : List Byte) (n : Nat) (busy : s.phase = .busy) (inside : s.ipos.toNat < s.inLen.toNat)
      (op : s.op = .encode) (used : 1 ≤ n) (cap : n ≤ laLen s) (room : s.ocnt.toNat + out.length ≤ s.cfg.outCap)
      (short : out.length ≤ 2 * n)
      (eq : t = advance n (pushAll ((List.range n).map (lookahead s)) (putAll out s)))
  /-- Rules R162, R164: the output bytes are the pushed bytes. -/
  | executed (out : List Byte) (n : Nat) (busy : s.phase = .busy) (inside : s.ipos.toNat + n ≤ s.inLen.toNat)
      (op : s.op = .decode) (used : n = 2 ∨ n = 4) (room : s.ocnt.toNat + out.length ≤ s.cfg.outCap)
      (eq : t = advance n (pushAll out (putAll out s)))

/-- The core's step, once for all. -/
theorem coreStep_effect {s t : State} (h : coreStep s = .next t) : CoreEffect s t := by
  unfold coreStep at h
  split at h
  · cases h
  rename_i hb
  have hb : s.phase = .busy := by simpa using hb
  split at h
  · rename_i hend
    cases h
    exact .finished hb hend rfl
  rename_i hne
  split at h
  · cases h
  rename_i hle
  have hin : s.ipos.toNat < s.inLen.toNat := by
    rcases Nat.lt_or_ge s.ipos.toNat s.inLen.toNat with g | g
    · exact g
    · exact absurd (BitVec.eq_of_toNat_eq (by omega)) hne
  split at h
  · rename_i hop
    have hla : 1 ≤ laLen s := by
      have : laLen s = min 18 (s.inLen.toNat - s.ipos.toNat) := rfl
      omega
    simp only [encodeStep, selectToken] at h
    split at h
    · rename_i hm
      have hm : 3 ≤ (findMatch s).2 := hm
      have hlen : (findMatch s).2 ≤ laLen s := scan_le s _
      have h18 := (laLen_le s).1
      have hn : (BitVec.ofNat 8 (findMatch s).2).toNat = (findMatch s).2 := by
        rw [BitVec.toNat_ofNat]; omega
      simp only [exec, execMatchTok, whileBusy, if_pos hb, hop, emitMatch, hn] at h
      split at h
      · cases h
        exact .aborted .capacityOut hb hin (by decide) (fun _ => rfl) rfl
      · rename_i hroom
        cases h
        refine .emitted _ _ hb hin hop (by omega) hlen ?_ ?_ rfl
        · simp only [outFull, decide_eq_true_eq] at hroom
          simp only [List.length_cons, List.length_nil]
          omega
        · simp only [List.length_cons, List.length_nil]
          omega
    · simp only [exec, execLit, whileBusy, if_pos hb, hop, emitLit] at h
      split at h
      · cases h
        exact .aborted .capacityOut hb hin (by decide) (fun _ => rfl) rfl
      · rename_i hroom
        cases h
        refine .emitted [0x00#8, lookahead s 0] 1 hb hin hop (by omega) hla ?_ (by simp) rfl
        simp only [outFull, decide_eq_true_eq] at hroom
        simp only [List.length_cons, List.length_nil]
        omega
  · rename_i hop
    have hne : s.op ≠ .encode := by simp [hop]
    unfold decodeStep at h
    split at h
    · rename_i i after hd
      have token : (∃ v, i = .lit v) ∨ ∃ off len, i = .matchTok off len := by
        unfold decodeToken at hd
        repeat' split at hd
        all_goals first
          | (cases hd; done)
          | (injection hd with hd; injection hd with hd; subst hd; exact .inl ⟨_, rfl⟩)
          | (injection hd with hd; injection hd with hd; subst hd; exact .inr ⟨_, _, rfl⟩)
      rcases token with ⟨v, rfl⟩ | ⟨off, len, rfl⟩
      · simp only [exec, execLit, whileBusy, if_pos hb, hop, litExec] at h
        split at h
        · cases h
          exact .aborted .formatTruncLit hb hin (by decide) (fun g => absurd g hne) rfl
        rename_i hfit
        split at h
        · cases h
          exact .aborted .capacityOut hb hin (by decide) (fun _ => rfl) rfl
        rename_i hroom
        cases h
        refine .executed [v] 2 hb (by omega) hop (.inl rfl) ?_ rfl
        simpa [outFull] using hroom
      · simp only [exec, execMatchTok, whileBusy, if_pos hb, hop, matchExec] at h
        split at h
        · cases h
          exact .aborted .formatTruncMatch hb hin (by decide) (fun g => absurd g hne) rfl
        rename_i hfit
        split at h
        · cases h
          exact .aborted .rangeOffZero hb hin (by decide) (fun g => absurd g hne) rfl
        rename_i hzero
        split at h
        · cases h
          exact .aborted .rangeOffBeyondWindow hb hin (by decide) (fun g => absurd g hne) rfl
        rename_i hwin
        split at h
        · cases h
          exact .aborted .rangeOffUnwritten hb hin (by decide) (fun g => absurd g hne) rfl
        split at h
        · cases h
          exact .aborted .capacityOut hb hin (by decide) (fun _ => rfl) rfl
        rename_i hroom
        rw [matchCopy_eq _ (by omega) (by omega)] at h
        cases h
        refine .executed _ 4 hb (by omega) hop (.inr rfl) ?_ rfl
        simpa [outFull] using hroom
    · rename_i e he
      split at h
      · rename_i code hcode
        cases h
        refine .aborted code hb hin ?_ (fun g => absurd g hne) rfl
        rintro rfl
        cases e <;> simp [fetchError] at hcode
      · cases h

/-- What a START does (rules R191, R193, R194). -/
theorem startOperation_cases (op : Op) (s : State) :
    (s.phase = .busy ∧ startOperation op s = s) ∨
    (s.phase ≠ .busy ∧ s.cfg.inCap < s.inLen.toNat ∧ startOperation op s = abort .capacityIn 0 { s with op := op }) ∨
    (s.phase ≠ .busy ∧ s.inLen.toNat ≤ s.cfg.inCap ∧
      startOperation op s = { clearWindow s with
        op := op, ipos := 0, ocnt := 0, outLen := 0, ecode := 0, errPos := 0, phase := .busy }) := by
  unfold startOperation
  split
  · exact .inl ⟨‹_›, rfl⟩
  · split
    · exact .inr (.inl ⟨‹_›, ‹_›, rfl⟩)
    · exact .inr (.inr ⟨‹_›, by omega, rfl⟩)

/-- What a host access can do to a state whose move has been taken (rules R50 to R54, R195 to R198). The model's own
answer and draw count are left open. -/
inductive HostEffect (s t : State) : Prop where
  /-- Reads and ignored writes. -/
  | quiet (reply : Option Reply) (draws : Nat) (eq : t = { s with reply := reply, outDraws := draws })
  /-- Rule R197. -/
  | wroteIn (a : Nat) (v : Byte) (free : s.phase ≠ .busy) (inside : a < s.cfg.inCap)
      (eq : t = { s with inBuf := Memory.write .input s.inBuf a v, reply := none })
  /-- Rule R195. -/
  | wroteInLen (n : Word) (free : s.phase ≠ .busy) (eq : t = { s with inLen := n, reply := none })
  /-- Rule R191. -/
  | started (op : Op) (eq : t = startOperation op (clearReply s))

/-- A host access, once for all. -/
theorem hostAccess_effect {a : HostAccess} {s t : State} (h : hostAccess a s = .next t) : HostEffect s t := by
  cases a with
  | readIn i => cases h; exact .quiet _ _ rfl
  | writeIn i v =>
    simp only [hostAccess, hostWriteIn] at h
    split at h <;> cases h
    · rename_i g
      exact .wroteIn i v (by simpa using g.1) (by simpa using g.2) rfl
    · exact .quiet none s.outDraws rfl
  | readOut i =>
    simp only [hostAccess, hostReadOut] at h
    split at h
    · cases h; exact .quiet _ _ rfl
    · split at h <;> cases h
      · exact .quiet s.reply s.outDraws rfl
      · exact .quiet _ _ rfl
  | writeOut i v => cases h; exact .quiet none s.outDraws rfl
  | readReg o w => cases h; exact .quiet _ _ rfl
  | writeReg o w v =>
    simp only [hostAccess, hostWriteReg] at h
    split at h
    · simp only [decodeCtrl] at h
      repeat' split at h
      · cases h; exact .started .decode rfl
      · cases h; exact .started .encode rfl
      · cases h; exact .quiet none s.outDraws rfl
    · simp only [hostWriteInLen] at h
      split at h <;> cases h
      · exact .quiet none s.outDraws rfl
      · rename_i g
        exact .wroteInLen v (by simpa using g) rfl
    all_goals cases h; exact .quiet none s.outDraws rfl

/-- Everything that one step can do (rules R199, R200). -/
inductive StepEffect (s t : State) : Prop where
  | core (moves : coreMoves s) (effect : CoreEffect (atCoreStep s) t)
  | host (a : HostAccess) (ms : List Move) (moves : s.schedule = .host a :: ms) (effect : HostEffect (withMoves ms s) t)
  | reset (ms : List Move) (moves : s.schedule = .reset :: ms) (eq : t = hardwareReset (withMoves ms s))

theorem atCoreStep_of_nil {s : State} (h : s.schedule = []) : atCoreStep s = clearReply s := by
  cases s; subst h; rfl

/-- When the core moves, the step is the core's. -/
theorem step_of_coreMoves {s : State} (h : coreMoves s) : step s = coreStep (atCoreStep s) := by
  unfold step
  rcases hs : s.schedule with _ | ⟨m, ms⟩
  · rw [atCoreStep_of_nil hs]
  · rw [coreMoves, hs] at h
    simp only [List.head?_cons, Option.some.injEq, reduceCtorEq, false_or] at h
    subst h
    simp [atCoreStep, hs]

theorem step_effect {s t : State} (h : step s = .next t) : StepEffect s t := by
  rcases hs : s.schedule with _ | ⟨m, ms⟩
  · have hm : coreMoves s := .inl (by simp [hs])
    exact .core hm (coreStep_effect (step_of_coreMoves hm ▸ h))
  · cases m with
    | core =>
      have hm : coreMoves s := .inr (by simp [hs])
      exact .core hm (coreStep_effect (step_of_coreMoves hm ▸ h))
    | host a =>
      simp only [step, hs] at h
      exact .host a ms hs (hostAccess_effect h)
    | reset =>
      simp only [step, hs] at h
      cases h
      exact .reset ms hs rfl

end Sys2Proof.Machine
end

