-- ==== Sys2Proof/Tests/Slice0.lean ====
section
/-! SUPPORT. The model's own tests. Expected results come from the spec's encodings, examples and vectors
(95_test_vectors.md), named in each comment. The last sections give each statement with hypotheses a state that meets
them. -/

namespace Sys2Proof.Tests

open Sys2Proof Sys2Proof.Machine

/-! ## Helpers -/

/-- Does the outcome reach a next state of which p holds? -/
def reaches (o : Host.Outcome State Fault Refusal) (p : State → Bool) : Bool :=
  match o with
  | .next t => p t
  | .fault _ => false
  | .refused _ => false

theorem exists_of_reaches {o : Host.Outcome State Fault Refusal} {p : State → Bool} (h : reaches o p = true) :
    ∃ t, o = .next t ∧ p t = true := by
  cases o with
  | next t => exact ⟨t, rfl, h⟩
  | fault r => cases h
  | refused r => cases h

/-- A machine with a 64-byte IN that holds the bytes of input, all of them in IN_LEN, idle. -/
def loaded (input : List Byte) (outCap : Nat) : State :=
  { State.resetWith ⟨64, outCap⟩ with inBuf := loadIn input 0 [], inLen := BitVec.ofNat 32 input.length }

/-- An ENCODE of seen followed by rest that has consumed seen (and, as if by earlier tokens, written nothing). -/
def encoding (seen rest : List Byte) (outCap : Nat) : State :=
  pushAll seen { loaded (seen ++ rest) outCap with phase := .busy, ipos := BitVec.ofNat 32 seen.length }

/-- A DECODE that has produced seen and stands at the first byte of rest. -/
def decoding (seen rest : List Byte) (outCap : Nat) : State :=
  putAll seen (pushAll seen { loaded rest outCap with op := .decode, phase := .busy })

/-- The first n bytes of OUT. -/
def outBytes (n : Nat) (s : State) : List (Option Byte) := (List.range n).map (outByte s)

/-! ## Well-formedness: what the check refuses -/

theorem test_wf_offset_zero : (Instr.matchTok 0#16 3#8).wellFormed = false := by decide
theorem test_wf_offset_beyond_window : (Instr.matchTok 4097#16 3#8).wellFormed = false := by decide
theorem test_wf_length_two : (Instr.matchTok 1#16 2#8).wellFormed = false := by decide
theorem test_wf_length_nineteen : (Instr.matchTok 1#16 19#8).wellFormed = false := by decide
theorem test_wf_bounds : (Instr.matchTok 1#16 3#8).wellFormed = true ∧ (Instr.matchTok 4096#16 18#8).wellFormed = true := by
  decide

/-! ## Decoding: words written out from rules R72, R73 and R81 -/

/-- `00000000 01000001` (rule R72). -/
theorem test_decode_lit : decodeTableWord 16 0b0000000001000001 = some (.lit 0x41#8) := by decide

/-- `00000001 oooooooo oooooooo llllllll` with off = 4096, `01 10 00 12` (rule R73, rule R142's corner case). -/
theorem test_decode_match :
    decodeTableWord 32 0b00000001000100000000000000010010 = some (.matchTok 4096#16 18#8) := by decide

/-- A MATCH whose three bytes all differ: off = 0xABCD, len = 0xEF. -/
theorem test_decode_match_byte_order :
    decode (.stream [0x01#8, 0xAB#8, 0xCD#8, 0xEF#8]) = .ok (.matchTok 0xABCD#16 0xEF#8, []) := by decide

theorem test_decode_start_encode : decodeTableWord 32 0b01 = some (.startEncode 0#30) := by decide
theorem test_decode_start_decode : decodeTableWord 32 0b11 = some (.startDecode 0#30) := by decide

/-- Vector H3's value, bit 1 without bit 0. -/
theorem test_decode_ctrl_nop : decodeTableWord 32 0b10 = some (.ctrlNop 1#31) := by decide

/-- Rule R77: 0x02 and 0xFF are no discriminators. -/
theorem test_decode_bad_disc :
    decode (.stream [0x02#8]) = .error .badDisc ∧ decode (.stream [0xFF#8, 0x00#8]) = .error .badDisc := by decide

/-- Vectors X2, X7: truncated tokens. -/
theorem test_decode_truncated :
    decode (.stream [0x00#8]) = .error .truncLit ∧
    decode (.stream [0x01#8, 0x00#8, 0x01#8]) = .error .truncMatch := by decide

/-- Rule R161: the bytes after a token are left for the next one. -/
theorem test_decode_rest : decode (.stream [0x00#8, 0x01#8, 0x00#8]) = .ok (.lit 0x01#8, [0x00#8]) := by decide

/-! ## Each row's word, run by the first step after reset -/

/-- A LIT in a running DECODE writes its byte. -/
theorem test_first_step_lit :
    reaches (step (State.reset.withFetchWord 16 0x0041)) (fun t => outByte t 0 = some 0x41#8 && t.ipos = 2) = true := by
  decide

/-- Vector X9: MATCH 0, 0 as the first token raises RANGE_OFF_ZERO. -/
theorem test_first_step_match :
    reaches (step (State.reset.withFetchWord 32 0x01000000)) (fun t => statusWord t = 0x4C#32 && t.errPos = 0) = true := by
  decide

theorem test_first_step_start_encode :
    reaches (step (State.reset.withFetchWord 32 0x00000001)) (fun t => statusWord t = 0x1#32) = true := by decide

theorem test_first_step_start_decode :
    reaches (step (State.reset.withFetchWord 32 0x00000003)) (fun t => statusWord t = 0x9#32) = true := by decide

theorem test_first_step_ctrl_nop :
    reaches (step (State.reset.withFetchWord 32 0x00000000)) (fun t => t = State.reset) = true := by decide

/-! ## One step of each instruction -/

/-- Rule R162's example: the stream `00 41`. -/
theorem test_lit_decode :
    reaches (step (decoding [] [0x00#8, 0x41#8] 8))
      (fun t => outBytes 2 t = [some 0x41#8, none] && t.ocnt = 1 && histRead t 0 = 0x41#8 && t.bpos = 1 && t.ipos = 2)
      = true := by decide

/-- Rule R141's example: IN = `41`. -/
theorem test_lit_encode :
    reaches (step (encoding [] [0x41#8] 8))
      (fun t => outBytes 3 t = [some 0x00#8, some 0x41#8, none] && t.ocnt = 2 && t.ipos = 1 && histRead t 0 = 0x41#8 &&
        t.bpos = 1 && t.hfill = 1) = true := by decide

/-- Rule R164's example: `01 00 03 06` after "abc" overlaps itself. -/
theorem test_match_decode :
    reaches (step (decoding [0x61#8, 0x62#8, 0x63#8] [0x01#8, 0x00#8, 0x03#8, 0x06#8] 16))
      (fun t => outBytes 10 t = [some 0x61#8, some 0x62#8, some 0x63#8, some 0x61#8, some 0x62#8, some 0x63#8, some 0x61#8,
          some 0x62#8, some 0x63#8, none] && t.bpos = 9 && t.ipos = 4) = true := by decide

/-- Vector M4 (tie: the nearest wins) with rule R142: `01 00 04 03`, three bytes consumed. -/
theorem test_match_encode :
    reaches (step (encoding [0x61#8, 0x62#8, 0x63#8, 0x58#8, 0x61#8, 0x62#8, 0x63#8, 0x59#8] [0x61#8, 0x62#8, 0x63#8] 16))
      (fun t => outBytes 5 t = [some 0x01#8, some 0x00#8, some 0x04#8, some 0x03#8, none] && t.ipos = 11 && t.bpos = 11)
      = true := by decide

/-- Rule R191's example. -/
theorem test_start_encode :
    reaches (exec (.startEncode 0) (loaded [0x41#8] 8)) (fun t => statusWord t = 0x1#32) = true := by decide

/-- Vector K6: IN_LEN = 3, IN_CAP = 2. -/
theorem test_start_encode_over_capacity :
    reaches (exec (.startEncode 0) { State.resetWith ⟨2, 8⟩ with inLen := 3 })
      (fun t => statusWord t = 0x84#32 && t.errPos = 0) = true := by decide

/-- START from DONE: the result is discarded and the window cleared (rules R191, R108). -/
theorem test_start_decode :
    reaches (exec (.startDecode 0)
        { pushAll [0x41#8] (loaded [0x00#8, 0x41#8] 8) with phase := .done, outLen := 5, ocnt := 5, ipos := 2 })
      (fun t => statusWord t = 0x9#32 && t.outLen = 0 && t.ocnt = 0 && t.ipos = 0 && histRead t 0 = 0 && t.bpos = 0)
      = true := by decide

/-- Rule R193: START while BUSY is ignored. -/
theorem test_start_decode_while_busy :
    reaches (exec (.startDecode 0) (encoding [] [0x41#8] 8)) (fun t => t = encoding [] [0x41#8] 8) = true := by decide

/-- Vector H4: CTRL = 0xFFFFFFFC. -/
theorem test_ctrl_nop :
    reaches (step { loaded [0x41#8] 8 with schedule := [.host (.writeReg 0x00 4 0xFFFFFFFC#32)] })
      (fun t => t = loaded [0x41#8] 8) = true := by decide

/-! ## Host accesses and single operations -/

/-- Rule R54: a 16-bit access, an access at an odd offset and one beyond the registers read 0. -/
theorem test_odd_register_reads :
    regRead (encoding [] [0x41#8] 8) 0x04 4 = 0x1#32 ∧ regRead (encoding [] [0x41#8] 8) 0x04 2 = 0#32 ∧
    regRead (encoding [] [0x41#8] 8) 0x05 4 = 0#32 ∧ regRead (encoding [] [0x41#8] 8) 0x14 4 = 0#32 := by decide

/-- Vector W2: a push at BPOS = 4095 wraps. -/
theorem test_push_wraps :
    (histPush 0x7#8 { State.reset with bpos := 4095, hfill := 4095 }).bpos = 0 ∧
    (histPush 0x7#8 { State.reset with bpos := 4095, hfill := 4095 }).hfill = 4096 ∧
    histRead (histPush 0x7#8 { State.reset with bpos := 4095, hfill := 4095 }) 4095 = 0x7#8 := by decide

/-- Vector W4. -/
theorem test_back_index_wraps : backIndex { State.reset with bpos := 5 } 10 = 4091#12 := by decide

/-- Vector M10: the overlap case compares with the token's own byte. -/
theorem test_overlap_reference : findMatch (encoding [0x05#8] [0x05#8, 0x00#8, 0x00#8] 8) = (1, 1) := by decide

/-- Writing what an unlisted HIST entry holds lists nothing, so equal windows are equal data. -/
theorem test_canonical_window : (histPush 0x00#8 State.reset).hist = [] := by decide

/-! ## The invariants hold of the states used below -/

/-- An ENCODE of `41 41 41 41` at its second token (vector E5), but with an empty OUT. -/
def midEncode : State := encoding [0x41#8] [0x41#8, 0x41#8, 0x41#8] 8

/-- A DECODE that has produced `61` and stands at MATCH 1, 2. -/
def midDecode : State := decoding [0x61#8] [0x01#8, 0x00#8, 0x01#8, 0x02#8] 8

theorem inv_midEncode : Inv midEncode := by constructor <;> decide
theorem inv_midDecode : Inv midDecode := by constructor <;> decide
theorem inv_encode_end : Inv (encoding [0x41#8] [] 8) := by constructor <;> decide

theorem clear_after_pushes (vs : List Byte) (s : State) (hist : s.hist = []) (d : Nat) (h : vs.length < d) (hW : d ≤ W) :
    backRead (pushAll vs s) d = 0x00#8 := by
  rw [backRead_pushAll vs s d (by omega) hW, dif_neg (by omega), backRead, histRead, hist]
  rfl

theorem lockstep_midEncode : Lockstep midEncode where
  bpos := by decide
  hfill := by decide
  held := by
    intro d h1 h2
    have full : midEncode.hfill.toNat = 1 := by decide
    obtain rfl : d = 1 := by omega
    decide
  clear := by
    intro d h hW
    have full : midEncode.hfill.toNat = 1 := by decide
    exact clear_after_pushes [0x41#8] _ rfl d (by simp only [List.length]; omega) hW

theorem lockstep_midDecode : Lockstep midDecode where
  bpos := by decide
  hfill := by decide
  held := by
    intro d h1 h2
    have full : midDecode.hfill.toNat = 1 := by decide
    obtain rfl : d = 1 := by omega
    decide
  clear := by
    intro d h hW
    have full : midDecode.hfill.toNat = 1 := by decide
    exact clear_after_pushes [0x61#8] _ rfl d (by simp only [List.length]; omega) hW

/-! ## Witnesses: states that meet the hypotheses of the statements, clause by clause

A witness is named after its statement. -/

/-- 0x00 with 2 bytes, 0x01 with 4 bytes, and the two ends of 0x02..0xFF. -/
theorem witness_FirstByteTellsTokenLength :
    decodeToken [0x00#8, 0x07#8] = .ok (.lit 0x07#8, []) ∧
    decodeToken [0x01#8, 0x00#8, 0x01#8, 0x03#8] = .ok (.matchTok 1#16 3#8, []) ∧
    2 ≤ (0x02#8 : Byte).toNat ∧ 2 ≤ (0xFF#8 : Byte).toNat := by decide

theorem witness_CommandsAreDecodedFromTwoBits :
    0xFFFFFFFD#32 &&& 0x3#32 = 0x1#32 ∧ 0x00000003#32 &&& 0x3#32 = 0x3#32 ∧ 0xFFFFFFFE#32 &&& 0x1#32 = 0x0#32 := by
  decide

theorem witness_StepRunsTheDecodedInstruction :
    (coreMoves midDecode ∧ midDecode.phase = .busy ∧ midDecode.op = .decode ∧
      decode (.stream [0x01#8, 0x00#8, 0x01#8, 0x02#8]) = .ok (.matchTok 1#16 2#8, []) ∧
      midDecode.ipos.toNat + 4 ≤ midDecode.inLen.toNat ∧
      (∀ (k : Nat) (h : k < 4),
        inByte midDecode (midDecode.ipos.toNat + k) = ([0x01#8, 0x00#8, 0x01#8, 0x02#8] : List Byte)[k])) ∧
    decode (.ctrl 0x1#32) = .ok (.startEncode 0#30, []) := by
  refine ⟨⟨.inl rfl, by decide, by decide, by decide, by decide, by decide⟩, by decide⟩

/-- No candidate; a longest run of 2 (vector M7); a run of 3 at the only candidate; a run of 18 (vector M6). -/
theorem witness_EncodeStepEmitsTheChosenToken :
    coreMoves midEncode ∧ midEncode.phase = .busy ∧ midEncode.op = .encode ∧
    midEncode.ipos.toNat < midEncode.inLen.toNat ∧ midEncode.hfill.toNat = 1 ∧ runLength midEncode 1 = 3 ∧
    (encoding [] [0x41#8] 8).hfill.toNat = 0 ∧
    runLength (encoding [0x41#8] [0x41#8, 0x41#8] 8) 1 = 2 ∧
    runLength (encoding [0x09#8] (List.replicate 39 0x09#8) 8) 1 = 18 := by
  refine ⟨.inl rfl, by decide, by decide, by decide, by decide, by decide, by decide, by decide, by decide⟩

/-- Vectors X3, X4 (disc 2 and 255), X2 (no literal byte), X7 (two of three descriptor bytes). -/
theorem witness_MalformedTokensRaiseFormatErrors :
    (inByte (decoding [] [0x02#8] 8) 0).toNat = 2 ∧ (inByte (decoding [] [0xFF#8, 0x00#8] 8) 0).toNat = 255 ∧
    inByte (decoding [] [0x00#8] 8) 0 = 0x00#8 ∧ (decoding [] [0x00#8] 8).inLen.toNat = 1 ∧
    inByte (decoding [] [0x01#8, 0x00#8, 0x01#8] 8) 0 = 0x01#8 ∧
    (decoding [] [0x01#8, 0x00#8, 0x01#8] 8).inLen.toNat = 3 ∧
    coreMoves (decoding [] [0x02#8] 8) ∧ (decoding [] [0x02#8] 8).phase = .busy ∧
    (decoding [] [0x02#8] 8).op = .decode := by
  refine ⟨by decide, by decide, by decide, by decide, by decide, by decide, .inl rfl, by decide, by decide⟩

/-- One token for each code, with the boundaries of the offset's range: 0, 2 with HFILL = 1, 4097. -/
theorem witness_FirstCauseOfATokenIsReported :
    tokenErrorCode (decoding [] [0x02#8] 8) = 1 ∧ tokenErrorCode (decoding [] [0x00#8] 8) = 2 ∧
    tokenErrorCode (decoding [] [0x01#8, 0x00#8, 0x00#8] 8) = 3 ∧
    tokenErrorCode (decoding [] [0x01#8, 0x00#8, 0x00#8, 0x00#8] 8) = 4 ∧
    tokenErrorCode (decoding [0x61#8] [0x01#8, 0x00#8, 0x02#8, 0x03#8] 8) = 5 ∧
    tokenErrorCode (decoding [0x61#8] [0x01#8, 0x10#8, 0x00#8, 0x03#8] 8) = 5 ∧
    tokenErrorCode (decoding [0x61#8] [0x01#8, 0x10#8, 0x01#8, 0x03#8] 8) = 6 ∧
    tokenErrorCode (decoding [0x61#8] [0x01#8, 0x00#8, 0x01#8, 0x03#8] 3) = 7 ∧
    tokenErrorCode (decoding [0x61#8] [0x01#8, 0x00#8, 0x01#8, 0x03#8] 4) = 0 ∧
    coreMoves midDecode ∧ midDecode.cfg.wf ∧ midDecode.phase = .busy ∧ midDecode.op = .decode ∧
    midDecode.ipos.toNat < midDecode.inLen.toNat ∧
    ((State.resetWith ⟨2, 8⟩).phase ≠ .busy ∧ (2 : Nat) < (3#32).toNat) := by
  refine ⟨by decide, by decide, by decide, by decide, by decide, by decide, by decide, by decide, by decide, .inl rfl,
    by decide, by decide, by decide, by decide, by decide⟩

theorem witness_FinishPublishesTheResult :
    Inv (encoding [0x41#8] [] 8) ∧ coreMoves (encoding [0x41#8] [] 8) ∧ (encoding [0x41#8] [] 8).phase = .busy ∧
    (encoding [0x41#8] [] 8).ipos = (encoding [0x41#8] [] 8).inLen :=
  ⟨inv_encode_end, .inl rfl, by decide, by decide⟩

/-- Idle, and busy at both ends of 0..IN_LEN. -/
theorem witness_CoreStepsOnlyWhileBusy :
    coreMoves State.reset ∧ State.reset.phase ≠ .busy ∧ coreMoves midDecode ∧ midDecode.phase = .busy ∧
    midDecode.ipos.toNat = 0 ∧ (encoding [0x41#8] [] 8).ipos.toNat = (encoding [0x41#8] [] 8).inLen.toNat := by
  refine ⟨.inl rfl, by decide, .inl rfl, by decide, by decide, by decide⟩

/-- d = 1 and d = HFILL of two pushes; the first and the last distance beyond them. -/
theorem witness_WindowHoldsTheLastBytesPushed :
    (pushAll [0x41#8, 0x42#8] (clearWindow State.reset)).hfill.toNat = 2 ∧ 2 < 3 ∧ 3 ≤ W ∧ 4096 ≤ W := by decide

/-- A MATCH that reads distance 1 = HFILL while another entry of the window differs. -/
theorem witness_UnwrittenEntriesAreNeverRead :
    midDecode.hfill.toNat = 1 ∧
    histRead { midDecode with hist := [(0, 0x61#8), (9, 0x05#8)] } (backIndex midDecode 1) =
      histRead midDecode (backIndex midDecode 1) ∧
    ∃ t, coreStep midDecode = .next t ∧ (t.phase = .busy : Bool) = true :=
  ⟨by decide, by decide, exists_of_reaches (by decide)⟩

/-- A run that a mismatch stops below LA_LEN (vector M10). -/
theorem witness_RunLengthStopsAtTheFirstMismatch :
    runLength (encoding [0x05#8] [0x05#8, 0x00#8, 0x00#8] 8) 1 = 1 ∧
    laLen (encoding [0x05#8] [0x05#8, 0x00#8, 0x00#8] 8) = 3 := by decide

/-- A best run of at least 1, and none. -/
theorem witness_DetectorTakesLongestThenNearest :
    findMatch midEncode = (1, 3) ∧ findMatch (encoding [] [0x41#8] 8) = (0, 0) := by decide

theorem witness_ReferenceByteIsEarlierInput :
    midEncode.op = .encode ∧ Lockstep midEncode ∧ 1 ≤ midEncode.hfill.toNat ∧ 0 < laLen midEncode :=
  ⟨by decide, lockstep_midEncode, by decide, by decide⟩

theorem witness_EmittedTokensAreWellFormed :
    midEncode.op = .encode ∧ Lockstep midEncode ∧ 1 ≤ (findMatch midEncode).2 ∧
    selectToken midEncode = .matchTok 1#16 3#8 :=
  ⟨by decide, lockstep_midEncode, by decide, by decide⟩

/-- One byte short, no room, and exact room. -/
theorem witness_LitIsExecuted :
    midDecode.cfg.wf ∧ midDecode.phase = .busy ∧ midDecode.op = .decode ∧
    ((decoding [] [0x00#8] 8).inLen.toNat < (decoding [] [0x00#8] 8).ipos.toNat + 2) ∧
    ((decoding [0x61#8] [0x00#8, 0x41#8] 1).ipos.toNat + 2 = (decoding [0x61#8] [0x00#8, 0x41#8] 1).inLen.toNat ∧
      (decoding [0x61#8] [0x00#8, 0x41#8] 1).cfg.outCap < (decoding [0x61#8] [0x00#8, 0x41#8] 1).ocnt.toNat + 1) ∧
    ((decoding [0x61#8] [0x00#8, 0x41#8] 2).ocnt.toNat + 1 = (decoding [0x61#8] [0x00#8, 0x41#8] 2).cfg.outCap) := by
  decide

/-- The offsets 0, 1 = HFILL, 2, 4096 and 4097 with HFILL = 1; three of four bytes; no room, and exact room. -/
theorem witness_MatchIsExecuted :
    midDecode.cfg.wf ∧ midDecode.phase = .busy ∧ midDecode.op = .decode ∧ midDecode.hfill.toNat = 1 ∧ 1 ≤ W ∧
    midDecode.ipos.toNat + 4 = midDecode.inLen.toNat ∧
    ((decoding [] [0x01#8, 0x00#8, 0x01#8] 8).inLen.toNat < (decoding [] [0x01#8, 0x00#8, 0x01#8] 8).ipos.toNat + 4) ∧
    (0#16).toNat = 0 ∧ 4096 < (4097#16).toNat ∧ ((4096#16).toNat ≤ 4096 ∧ midDecode.hfill.toNat < (2#16).toNat) ∧
    ((1#16).toNat ≤ midDecode.hfill.toNat ∧ midDecode.cfg.outCap < midDecode.ocnt.toNat + (8#8).toNat) ∧
    midDecode.ocnt.toNat + (7#8).toNat = midDecode.cfg.outCap := by decide

theorem witness_OverlappingCopyRepeatsItself :
    Lockstep midDecode ∧ midDecode.cfg.wf ∧ midDecode.phase = .busy ∧ midDecode.op = .decode ∧
    midDecode.ipos.toNat + 4 ≤ midDecode.inLen.toNat ∧ (1#16).toNat ≤ midDecode.hfill.toNat ∧
    midDecode.ocnt.toNat + (7#8).toNat ≤ midDecode.cfg.outCap ∧
    ∃ t, exec (.matchTok 1#16 7#8) midDecode = .next t ∧ (t.ocnt = 8 : Bool) = true :=
  ⟨lockstep_midDecode, by decide, by decide, by decide, by decide, by decide, by decide, exists_of_reaches (by decide)⟩

/-- Lengths 0 and 255. -/
theorem witness_EveryMatchLengthIsAccepted :
    midDecode.cfg.wf ∧ midDecode.phase = .busy ∧ midDecode.op = .decode ∧
    midDecode.ipos.toNat + 4 ≤ midDecode.inLen.toNat ∧ (1#16).toNat ≤ midDecode.hfill.toNat ∧
    midDecode.ocnt.toNat + (0#8).toNat ≤ midDecode.cfg.outCap ∧
    (decoding [0x61#8] [0x01#8, 0x00#8, 0x01#8, 0xFF#8] 256).ocnt.toNat + (255#8).toNat ≤
      (decoding [0x61#8] [0x01#8, 0x00#8, 0x01#8, 0xFF#8] 256).cfg.outCap := by decide

theorem witness_CopyReadsBeforeItPushes : 1 ≤ 1 ∧ 1 ≤ W ∧ 1 ≤ 4096 ∧ 4096 = W := by decide

/-- No room, and exact room. -/
theorem witness_LitIsEmitted :
    midEncode.cfg.wf ∧ midEncode.phase = .busy ∧ midEncode.op = .encode ∧
    midEncode.ipos.toNat < midEncode.inLen.toNat ∧
    (encoding [] [0x41#8] 1).cfg.outCap < (encoding [] [0x41#8] 1).ocnt.toNat + 2 ∧
    (encoding [] [0x41#8] 2).ocnt.toNat + 2 = (encoding [] [0x41#8] 2).cfg.outCap := by decide

theorem witness_MatchIsEmitted :
    midEncode.cfg.wf ∧ midEncode.phase = .busy ∧ midEncode.op = .encode ∧ midEncode.hfill.toNat ≤ W ∧
    midEncode.ipos.toNat + (3#8).toNat = midEncode.inLen.toNat ∧
    (encoding [0x41#8] [0x41#8, 0x41#8, 0x41#8] 3).cfg.outCap < midEncode.ocnt.toNat + 4 ∧
    (encoding [0x41#8] [0x41#8, 0x41#8, 0x41#8] 4).cfg.outCap = midEncode.ocnt.toNat + 4 := by decide

theorem witness_EveryTokenStepAdvances :
    (midEncode.cfg.wf ∧ coreMoves midEncode ∧ midEncode.phase = .busy ∧
      midEncode.ipos.toNat < midEncode.inLen.toNat ∧
      ∃ t, step midEncode = .next t ∧ (t.phase = .busy && midEncode.op = .encode : Bool) = true) ∧
    (coreMoves midDecode ∧ ∃ t, step midDecode = .next t ∧ (t.phase = .busy && midDecode.op = .decode : Bool) = true) :=
  ⟨⟨by decide, .inl rfl, by decide, by decide, exists_of_reaches (by decide)⟩,
    ⟨.inl rfl, exists_of_reaches (by decide)⟩⟩

theorem witness_AbortLeavesTheDatapath :
    coreMoves (decoding [] [0x02#8] 8) ∧
    ∃ t, step (decoding [] [0x02#8] 8) = .next t ∧ (t.phase = .error : Bool) = true :=
  ⟨.inl rfl, exists_of_reaches (by decide)⟩

/-- Vector K1's capacity, and vector K6. -/
theorem witness_EncodeRaisesOnlyCapacityErrors :
    (coreMoves (encoding [] [0x41#8] 1) ∧ (encoding [] [0x41#8] 1).op = .encode ∧
      ∃ t, step (encoding [] [0x41#8] 1) = .next t ∧ (t.phase = .error : Bool) = true) ∧
    ∃ t, exec (.startEncode 0) { State.resetWith ⟨2, 8⟩ with inLen := 3 } = .next t ∧ (t.phase = .error : Bool) = true :=
  ⟨⟨.inl rfl, by decide, exists_of_reaches (by decide)⟩, exists_of_reaches (by decide)⟩

/-- Busy; IN_LEN one above IN_CAP; IN_LEN equal to IN_CAP. -/
theorem witness_StartBeginsAnOperation :
    midEncode.phase = .busy ∧
    ((loaded [] 8).phase ≠ .busy ∧ (State.resetWith ⟨2, 8⟩).cfg.inCap < (3#32).toNat) ∧
    (State.resetWith ⟨2, 8⟩).cfg.inCap = (2#32).toNat := by decide

theorem witness_CtrlNopHasNoEffect :
    ∃ (s : State) (v : Word), v.getLsbD 0 = false ∧ s.schedule = [.host (.writeReg 0x00 4 v)] :=
  ⟨{ State.reset with schedule := [.host (.writeReg 0x00 4 0xFFFFFFFE#32)] }, _, by decide, rfl⟩

/-- STATE moves by each of the four events. -/
theorem witness_StateMovesOnlyAsTheLifecycleSays :
    (∃ t, step { midEncode with schedule := [.reset] } = .next t ∧ (t.phase ≠ .busy : Bool) = true) ∧
    (∃ t, step { State.reset with schedule := [.host (.writeReg 0x00 4 0x1#32)] } = .next t ∧
      (t.phase ≠ .idle : Bool) = true) ∧
    (∃ t, step (encoding [0x41#8] [] 8) = .next t ∧ (t.phase ≠ .busy : Bool) = true) ∧
    ∃ t, step (decoding [] [0x02#8] 8) = .next t ∧ (t.phase ≠ .busy : Bool) = true :=
  ⟨exists_of_reaches (by decide), exists_of_reaches (by decide), exists_of_reaches (by decide),
    exists_of_reaches (by decide)⟩

theorem witness_StatusShowsStateOpAndEcode :
    ({ midDecode with schedule := [.host (.readReg 0x04 4)] } : State).schedule = .host (.readReg 0x04 4) :: [] := rfl

/-- The first and the last of the four offsets. -/
theorem witness_RegisterReadsReturnTheRegister :
    ({ midDecode with schedule := [.host (.readReg 0x00 4)] } : State).schedule = .host (.readReg 0x00 4) :: [] ∧
    ({ midDecode with schedule := [.host (.readReg 0x10 4)] } : State).schedule = .host (.readReg 0x10 4) :: [] :=
  ⟨rfl, rfl⟩

/-- A read-only register; IN_LEN while BUSY and outside BUSY. -/
theorem witness_RegisterWritesStoreOnlyInLen :
    ({ midDecode with schedule := [.host (.writeReg 0x04 4 7#32)] } : State).schedule = [.host (.writeReg 0x04 4 7#32)] ∧
    ({ midDecode with schedule := [.host (.writeReg 0x08 4 7#32)] } : State).schedule = [.host (.writeReg 0x08 4 7#32)] ∧
    midDecode.phase = .busy ∧ State.reset.phase ≠ .busy := ⟨rfl, rfl, by decide, by decide⟩

/-- A reset during an operation (rule R241). -/
theorem witness_HardwareResetValues :
    ({ midDecode with schedule := [.reset] } : State).schedule = .reset :: [] ∧ midDecode.phase = .busy :=
  ⟨rfl, by decide⟩

/-- A read of OUT before DONE, twice, and the CTRL write that the second clause leaves out. -/
theorem witness_HostReadsHaveNoSideEffect :
    ({ midDecode with schedule := [.host (.readOut 0), .host (.readOut 0)] } : State).schedule =
      .host (.readOut 0) :: .host (.readOut 0) :: [] ∧
    (∃ t, step { midDecode with schedule := [.host (.writeReg 0x00 4 0x2#32)] } = .next t ∧
      (t.phase = .busy : Bool) = true) ∧ (0x2#32).getLsbD 0 = false :=
  ⟨rfl, exists_of_reaches (by decide), by decide⟩

/-- A 16-bit access, an unaligned one, and the first unassigned aligned offset. -/
theorem witness_OddRegisterAccessesDoNothing :
    (2 : Nat) ≠ 4 ∧ 0x05 % 4 ≠ 0 ∧ 0x14 ∉ [0x00, 0x04, 0x08, 0x0C, 0x10] := by decide

/-- Below and at IN_CAP, busy and not busy. -/
theorem witness_HostAccessesToIn :
    midDecode.phase = .busy ∧ (loaded [] 8).phase ≠ .busy ∧ (loaded [] 8).cfg.inCap ≤ 64 ∧
    63 < (loaded [] 8).cfg.inCap := by decide

/-- At OUT_CAP, and the result byte of a finished operation. -/
theorem witness_HostAccessesToOut :
    (loaded [] 8).cfg.outCap ≤ 8 ∧
    ∃ t, step (decoding [0x61#8] [] 8) = .next t ∧
      (t.phase = .done && 0 < t.outLen.toNat && outByte t 0 = some 0x61#8 : Bool) = true :=
  ⟨by decide, exists_of_reaches (by decide)⟩

theorem witness_InputIsFixedWhileBusy :
    (∃ t, step { midDecode with schedule := [.host (.writeIn 0 0x07#8)] } = .next t ∧
      (t.phase = .busy : Bool) = true) ∧ midDecode.phase = .busy ∧ coreMoves midDecode :=
  ⟨exists_of_reaches (by decide), by decide, .inl rfl⟩

theorem witness_UseSequenceStartsTheOperation :
    (⟨1, 1⟩ : Config).wf ∧ ([0x41#8] : List Byte).length = (⟨1, 1⟩ : Config).inCap ∧ (0x1#32).getLsbD 0 = true ∧
    (0x3#32).getLsbD 1 = true := by decide

/-- The ends of the capacities' range. -/
theorem witness_ResetMeetsTheInvariants : (⟨1, 1⟩ : Config).wf ∧ Config.largest.wf := by decide

theorem witness_EveryStepKeepsTheInvariant :
    Inv midDecode ∧ ∃ t, step midDecode = .next t ∧ (t.phase = .busy : Bool) = true :=
  ⟨inv_midDecode, exists_of_reaches (by decide)⟩

theorem witness_EveryStepKeepsTheWindowInLockstep :
    Inv midEncode ∧ Lockstep midEncode ∧ ∃ t, step midEncode = .next t ∧ (t.phase = .busy : Bool) = true :=
  ⟨inv_midEncode, lockstep_midEncode, exists_of_reaches (by decide)⟩

theorem witness_EveryOperationTerminates :
    Inv midDecode ∧ midDecode.phase = .busy ∧ midDecode.schedule = [] :=
  ⟨inv_midDecode, by decide, by decide⟩

/-- IN_LEN = IN_CAP and twice IN_LEN = OUT_CAP. -/
theorem witness_EncodeFinishesWithinTwiceTheInput :
    ∃ s : State, s.cfg.wf ∧ s.phase ≠ .busy ∧ s.schedule = [] ∧ s.inLen.toNat = s.cfg.inCap ∧
      2 * s.inLen.toNat = s.cfg.outCap :=
  ⟨{ State.resetWith ⟨1, 2⟩ with inBuf := [(0, 0x41#8)], inLen := 1 }, by decide⟩

/-- The encoder side: IN = `41`, which becomes `00 41` (vector E2). The decoder side: IN = `00 41`, room for one byte. -/
theorem witness_DecodingAnEncodingReturnsTheInput :
    ∃ s d : State, (s.cfg.wf ∧ s.phase ≠ .busy ∧ s.schedule = [] ∧ s.inLen.toNat ≤ s.cfg.inCap ∧
        2 * s.inLen.toNat ≤ s.cfg.outCap) ∧
      (d.cfg.wf ∧ d.phase ≠ .busy ∧ d.schedule = [] ∧ d.inLen.toNat ≤ d.cfg.inCap ∧ s.inLen.toNat ≤ d.cfg.outCap) ∧
      ∃ e, Sys2Proof.core.run 3 { s with schedule := [.host (.writeReg 0x00 4 0x1#32)] } = .next e ∧
        (e.phase = .done && d.inLen = e.outLen && some (inByte d 0) = outByte e 0 && some (inByte d 1) = outByte e 1 :
          Bool) = true :=
  ⟨{ State.resetWith ⟨1, 2⟩ with inBuf := [(0, 0x41#8)], inLen := 1 },
    { State.resetWith ⟨2, 1⟩ with inBuf := [(0, 0x00#8), (1, 0x41#8)], inLen := 2 }, by decide, by decide,
    exists_of_reaches (by decide)⟩

/-- Two machines with different IN_CAP and old results, the same input. -/
theorem witness_OperationsDependOnTheirInputAlone :
    ∃ s t : State, s ≠ t ∧ s.cfg.wf ∧ s.phase ≠ .busy ∧ t.phase ≠ .busy ∧ s.schedule = [] ∧ t.schedule = [] ∧
      s.cfg.outCap = t.cfg.outCap ∧ s.inLen = t.inLen ∧ s.inLen.toNat ≤ s.cfg.inCap ∧ t.inLen.toNat ≤ t.cfg.inCap ∧
      (∀ a < s.inLen.toNat, inByte s a = inByte t a) ∧
      (∃ b, exec (.startEncode 0) s = .next b ∧ (b.phase = .busy : Bool) = true) ∧
      ∃ c, exec (.startEncode 0) t = .next c ∧ (c.phase = .busy : Bool) = true :=
  ⟨{ State.resetWith ⟨1, 4⟩ with inBuf := [(0, 0x41#8)], inLen := 1 },
    { State.resetWith ⟨2, 4⟩ with inBuf := [(0, 0x41#8)], inLen := 1, phase := .done, ocnt := 3, outLen := 3 },
    by decide, by decide, by decide, by decide, by decide, by decide, by decide, by decide, by decide, by decide,
    by decide, exists_of_reaches (by decide), exists_of_reaches (by decide)⟩

end Sys2Proof.Tests
end

/-! # The state: register accesses, STATUS, and the invariant of every step (10_state.md) -/

namespace Sys2Proof.Machine

/-! ## Register accesses (rules R34, R36, R54) -/

@[simp] theorem regRead_withMoves (ms : List Move) (s : State) (o w : Nat) :
    regRead (withMoves ms s) o w = regRead s o w := rfl

/-- A scheduled register read answers with the register's value and changes nothing else. -/
theorem step_readReg {s : State} {o w : Nat} {ms : List Move} (h : s.schedule = .host (.readReg o w) :: ms) :
    step s = .next (withReply (.readReg o w) (regRead s o w) (withMoves ms s)) := by
  simp [step, h, hostAccess]

theorem step_writeReg {s : State} {o w : Nat} {v : Word} {ms : List Move}
    (h : s.schedule = .host (.writeReg o w v) :: ms) :
    step s = hostWriteReg o w v (clearReply (withMoves ms s)) := by
  simp [step, h, hostAccess]

theorem Reg.atOffset_eq_none {o : Nat} (h : o ∉ [0x00, 0x04, 0x08, 0x0C, 0x10]) : Reg.atOffset o = none := by
  unfold Reg.atOffset
  split <;> simp_all

/-- Rules R36, R54: another width, another alignment or an unassigned offset names no register. -/
theorem Reg.named_eq_none {o w : Nat} (h : w ≠ 4 ∨ o % 4 ≠ 0 ∨ o ∉ [0x00, 0x04, 0x08, 0x0C, 0x10]) :
    Reg.named o w = none := by
  unfold Reg.named
  split
  · rename_i hn
    exact Reg.atOffset_eq_none (by tauto)
  · rfl

theorem regRead_of_named_none {o w : Nat} (h : Reg.named o w = none) (s : State) : regRead s o w = 0 := by
  simp [regRead, h]

theorem hostWriteReg_of_named_none {o w : Nat} (h : Reg.named o w = none) (v : Word) (s : State) :
    hostWriteReg o w v s = .next s := by
  simp [hostWriteReg, h]

/-- Settles O35: the access names no register, and such an access reads 0 and writes nothing. -/
theorem oddRegisterAccessesDoNothing : Obligations.OddRegisterAccessesDoNothing := by
  intro s o w ms hodd
  have hnone := Reg.named_eq_none hodd
  constructor
  · intro hs
    rw [step_readReg hs, regRead_of_named_none hnone]
  · intro v hs
    rw [step_writeReg hs, hostWriteReg_of_named_none hnone]

/-! ## The fields of STATUS (rule R34) -/

/-- STATUS bit by bit. -/
theorem statusWord_getLsbD (s : State) (i : Nat) :
    (statusWord s).getLsbD i =
      if i < 3 then s.phase.bits.getLsbD i
      else if i < 4 then s.op.bit.getLsbD (i - 3)
      else s.ecode.getLsbD (i - 4) := by
  rw [statusWord, BitVec.getLsbD_append, BitVec.getLsbD_append, BitVec.getLsbD_append]
  split
  · rfl
  · by_cases hi : i < 4
    · rw [if_pos (by omega), if_pos hi]
    · rw [if_neg (by omega), if_neg hi, BitVec.getLsbD_zero, show i - 3 - 1 = i - 4 by omega]
      split
      · rfl
      · exact (BitVec.getLsbD_of_ge _ _ (by omega)).symm

theorem statusWord_busy (s : State) : (statusWord s).getLsbD 0 = true ↔ s.phase = .busy := by
  rw [statusWord_getLsbD, if_pos (by decide)]
  cases s.phase <;> decide

theorem statusWord_done (s : State) : (statusWord s).getLsbD 1 = true ↔ s.phase = .done := by
  rw [statusWord_getLsbD, if_pos (by decide)]
  cases s.phase <;> decide

theorem statusWord_error (s : State) : (statusWord s).getLsbD 2 = true ↔ s.phase = .error := by
  rw [statusWord_getLsbD, if_pos (by decide)]
  cases s.phase <;> decide

theorem statusWord_op (s : State) : (statusWord s).getLsbD 3 = true ↔ s.op = .decode := by
  rw [statusWord_getLsbD, if_neg (by decide), if_pos (by decide)]
  cases s.op <;> decide

theorem statusWord_ecode (s : State) : (statusWord s).extractLsb' 4 4 = s.ecode := by
  apply BitVec.eq_of_getLsbD_eq
  intro i hi
  rw [BitVec.getLsbD_extractLsb', statusWord_getLsbD, if_neg (by omega), if_neg (by omega), Nat.add_sub_cancel_left]
  simp [hi]

theorem statusWord_high (s : State) : (statusWord s).extractLsb' 8 24 = 0#24 := by
  apply BitVec.eq_of_getLsbD_eq
  intro i hi
  rw [BitVec.getLsbD_extractLsb', statusWord_getLsbD, if_neg (by omega), if_neg (by omega),
    BitVec.getLsbD_of_ge _ _ (by omega)]
  simp

/-- Settles O33: the read answers with STATUS, whose fields are read off bit by bit. -/
theorem statusShowsStateOpAndEcode : Obligations.StatusShowsStateOpAndEcode := by
  refine ⟨fun s ms hs => ?_, fun s v ms hs => ?_, ?_⟩
  · exact ⟨_, statusWord s, step_readReg hs, rfl, statusWord_busy s, statusWord_done s, statusWord_error s,
      statusWord_op s, statusWord_ecode s, statusWord_high s⟩
  · rw [step_writeReg hs]; rfl
  · decide

/-! ## The invariant of the registers and memories

One rule per named update: under which condition it keeps Inv. A token is output bytes, then pushes, then an advance of
IPOS, so these rules compose along StepEffect. -/

theorem ErrCode.code_ne_zero (e : ErrCode) : e.code ≠ 0 := by cases e <;> decide

theorem ErrCode.code_le (e : ErrCode) : e.code.toNat ≤ 8 := by cases e <;> decide

@[simp] theorem pushAll_phase (vs : List Byte) (s : State) : (pushAll vs s).phase = s.phase := by rw [pushAll_eq]
@[simp] theorem pushAll_ipos (vs : List Byte) (s : State) : (pushAll vs s).ipos = s.ipos := by rw [pushAll_eq]
@[simp] theorem pushAll_inLen (vs : List Byte) (s : State) : (pushAll vs s).inLen = s.inLen := by rw [pushAll_eq]
@[simp] theorem putAll_phase (vs : List Byte) (s : State) : (putAll vs s).phase = s.phase := by rw [putAll_eq]
@[simp] theorem putAll_ipos (vs : List Byte) (s : State) : (putAll vs s).ipos = s.ipos := by rw [putAll_eq]
@[simp] theorem putAll_inLen (vs : List Byte) (s : State) : (putAll vs s).inLen = s.inLen := by rw [putAll_eq]

/-- OCNT counts up without wrapping while OUT has room, since OUT_CAP is below 2^32 (rules R7, R25). -/
theorem putOut_ocnt_toNat {s : State} (h : Inv s) (room : s.ocnt.toNat < s.cfg.outCap) (v : Byte) :
    (putOut v s).ocnt.toNat = s.ocnt.toNat + 1 := by
  have hcap : s.cfg.outCap < 2 ^ 32 := h.cfg.2.2.2
  have one : (1 : BitVec 32).toNat = 1 := rfl
  rw [putOut_ocnt, BitVec.toNat_add, one]
  omega

theorem inv_histPush {s : State} (h : Inv s) (v : Byte) : Inv (histPush v s) :=
  { h with
    histWf := Memory.write_wf h.histWf _ _
    histBelow := Memory.write_below h.histBelow s.bpos.isLt v
    hfill := by rw [histPush_hfill_toNat]; exact Nat.min_le_right _ _ }

theorem inv_pushAll {s : State} (h : Inv s) (vs : List Byte) : Inv (pushAll vs s) := by
  induction vs generalizing s with
  | nil => exact h
  | cons v vs ih => exact ih (inv_histPush h v)

/-- One output byte of a running operation, where OUT has room for it. -/
theorem inv_putOut {s : State} (h : Inv s) (busy : s.phase = .busy) (room : s.ocnt.toNat < s.cfg.outCap) (v : Byte) :
    Inv (putOut v s) :=
  { h with
    outWf := Memory.write_wf h.outWf _ _
    outBelow := Memory.write_below (sp := .output) h.outBelow room v
    ocnt := by rw [putOut_ocnt_toNat h room]; exact room
    outLenDone := by simp [busy]
    outWritten := by
      intro _ a ha
      rw [putOut_ocnt_toNat h room] at ha
      rw [outByte_putOut]
      split
      · rfl
      · exact h.outWritten (.inl busy) a (by omega) }

theorem inv_putAll {s : State} (h : Inv s) (busy : s.phase = .busy) (vs : List Byte)
    (room : s.ocnt.toNat + vs.length ≤ s.cfg.outCap) : Inv (putAll vs s) := by
  induction vs generalizing s with
  | nil => exact h
  | cons v vs ih =>
    rw [List.length_cons] at room
    have hroom : s.ocnt.toNat < s.cfg.outCap := by omega
    refine ih (inv_putOut h busy hroom v) busy ?_
    rw [putOut_ocnt_toNat h hroom, putOut_cfg]
    omega

/-- IPOS may advance up to IN_LEN (rule R23). -/
theorem inv_advance {s : State} (h : Inv s) {n : Nat} (inside : s.ipos.toNat + n ≤ s.inLen.toNat) :
    Inv (advance n s) :=
  { h with
    iposBusy := by
      intro _
      have := s.inLen.isLt
      rw [advance_ipos, advance_inLen, BitVec.toNat_add, BitVec.toNat_ofNat]
      omega }

/-- What every completed token does: output bytes, pushes and an advance of IPOS. -/
theorem inv_tokenDone {s : State} (h : Inv s) (busy : s.phase = .busy) {out pushed : List Byte} {n : Nat}
    (room : s.ocnt.toNat + out.length ≤ s.cfg.outCap) (inside : s.ipos.toNat + n ≤ s.inLen.toNat) :
    Inv (advance n (pushAll pushed (putAll out s))) :=
  inv_advance (inv_pushAll (inv_putAll h busy out room) pushed) (by simpa using inside)

/-- An abort keeps the invariant in any STATE: its code is one of 1..8, and OUT_LEN is cleared (rule R215). -/
theorem inv_abort {s : State} (h : Inv s) (e : ErrCode) (pos : Word) : Inv (abort e pos s) :=
  { h with
    ecodeLegal := e.code_le
    ecodeError := by simpa using e.code_ne_zero
    errPosError := by simp
    outLenZero := by simp
    outLenDone := by simp
    inLenBusy := by simp
    iposBusy := by simp
    outWritten := by simp }

theorem inv_finish {s : State} (h : Inv s) (busy : s.phase = .busy) : Inv (finish s) :=
  { h with
    ecodeError := by simpa [busy] using h.ecodeError
    errPosError := by simpa [busy] using h.errPosError
    outLenZero := by simp
    outLenDone := by simp
    inLenBusy := by simp
    iposBusy := by simp
    outWritten := fun _ => h.outWritten (.inl busy) }

theorem inv_startOperation {s : State} (h : Inv s) (op : Op) : Inv (startOperation op s) := by
  rcases startOperation_cases op s with ⟨_, heq⟩ | ⟨_, _, heq⟩ | ⟨_, hlen, heq⟩ <;> rw [heq]
  · exact h
  · exact inv_abort (s := { s with op := op }) { h with } .capacityIn 0
  · exact { h with
      histWf := Memory.nil_wf _
      histBelow := by simp
      hfill := by simp
      ocnt := by simp
      ecodeLegal := by simp
      ecodeError := by simp
      errPosError := by simp
      outLenZero := by simp
      outLenDone := by simp
      inLenBusy := fun _ => hlen
      iposBusy := by simp
      outWritten := by simp }

/-- The machine after hardware reset, for every legal pair of capacities (rule R240). -/
theorem inv_resetWith {c : Config} (h : c.wf) : Inv (State.resetWith c) where
  cfg := h
  histWf := Memory.nil_wf _
  inWf := Memory.nil_wf _
  outWf := Memory.nil_wf _
  histBelow := by simp [State.resetWith]
  inBelow := by simp [State.resetWith]
  outBelow := by simp [State.resetWith]
  hfill := by simp [State.resetWith]
  ocnt := by simp [State.resetWith]
  ecodeLegal := by simp [State.resetWith]
  ecodeError := by simp [State.resetWith]
  errPosError := by simp [State.resetWith]
  outLenZero := by simp [State.resetWith]
  outLenDone := by simp [State.resetWith]
  inLenBusy := by simp [State.resetWith]
  iposBusy := by simp [State.resetWith]
  outWritten := by simp [State.resetWith]

theorem inv_hardwareReset {s : State} (h : Inv s) : Inv (hardwareReset s) := { inv_resetWith h.cfg with }

theorem inv_withMoves {s : State} (h : Inv s) (ms : List Move) : Inv (withMoves ms s) := { h with }

theorem inv_clearReply {s : State} (h : Inv s) : Inv (clearReply s) := { h with }

theorem inv_of_coreEffect {s t : State} (h : Inv s) (e : CoreEffect s t) : Inv t := by
  cases e with
  | finished busy _ heq => exact heq ▸ inv_finish h busy
  | aborted code _ _ _ _ heq => exact heq ▸ inv_abort h code s.ipos
  | emitted out n busy inside _ _ cap room _ heq =>
    have hla := (laLen_le s).2
    exact heq ▸ inv_tokenDone h busy room (by omega)
  | executed out n busy inside _ _ room heq => exact heq ▸ inv_tokenDone h busy room inside

theorem inv_of_hostEffect {s t : State} (h : Inv s) (e : HostEffect s t) : Inv t := by
  cases e with
  | quiet reply draws heq => exact heq ▸ { h with }
  | wroteIn a v free inside heq =>
    exact heq ▸ { h with
      inWf := Memory.write_wf h.inWf a v
      inBelow := Memory.write_below (sp := .input) h.inBelow inside v }
  | wroteInLen n free heq =>
    exact heq ▸ { h with
      inLenBusy := fun busy => absurd busy free
      iposBusy := fun busy => absurd busy free }
  | started op heq => exact heq ▸ inv_startOperation (inv_clearReply h) op

/-- Settles O43, by cases on what one step can do. -/
theorem everyStepKeepsTheInvariant : Obligations.EveryStepKeepsTheInvariant := by
  intro s t h hstep
  cases step_effect hstep with
  | core _ effect => exact inv_of_coreEffect (inv_clearReply (inv_withMoves h _)) effect
  | host a ms _ effect => exact inv_of_hostEffect (inv_withMoves h ms) effect
  | reset ms _ heq => exact heq ▸ inv_hardwareReset (inv_withMoves h ms)

end Sys2Proof.Machine

/-! # The memory: host reads and writes, and the input of a running operation (20_memory.md) -/

namespace Sys2Proof.Machine

/-! ## Host reads (rule R59) -/

/-- A scheduled host access is taken from the schedule and performed. -/
theorem step_of_host {s : State} {a : HostAccess} {ms : List Move} (h : s.schedule = .host a :: ms) :
    step s = hostAccess a (withMoves ms s) := by
  simp [step, h]

/-- The reads among the host's accesses. -/
def HostAccess.IsRead (a : HostAccess) : Prop :=
  (∃ i, a = .readIn i) ∨ (∃ i, a = .readOut i) ∨ ∃ o w, a = .readReg o w

theorem reply_of_repeatsRead {i : Nat} {s : State} (h : repeatsRead i s = true) :
    ∃ x, s.reply = some ⟨.readOut i, x⟩ := by
  unfold repeatsRead at h
  split at h
  · rename_i r hr
    exact ⟨r.value, by rw [hr, ← of_decide_eq_true h]⟩
  · cases h

/-- A read of OUT leaves its answer and at most counts a draw. -/
theorem hostReadOut_answers (i : Nat) (s : State) :
    ∃ x d, hostReadOut i s = withReply (.readOut i) x { s with outDraws := d } := by
  unfold hostReadOut
  split
  · exact ⟨_, s.outDraws, rfl⟩
  · split
    · rename_i hrep
      obtain ⟨x, hx⟩ := reply_of_repeatsRead hrep
      exact ⟨x, s.outDraws, by rw [withReply, ← hx]⟩
    · exact ⟨_, _, rfl⟩

/-- Where rule R52 gives the byte, the read answers with it. -/
theorem hostReadOut_of_definedOutByte {i : Nat} {v : Byte} {s : State} (h : definedOutByte s i = some v) :
    hostReadOut i s = withReply (.readOut i) (v.setWidth 32) s := by
  simp [hostReadOut, h]

/-- Where rule R52 leaves the byte unspecified, the answer of the last read stands (log 5). -/
theorem hostReadOut_of_repeatsRead {i : Nat} {s : State} (hnone : definedOutByte s i = none)
    (hrep : repeatsRead i s = true) : hostReadOut i s = s := by
  simp [hostReadOut, hnone, hrep]

/-- Reading OUT again at once changes nothing more, so it gives the same answer. -/
theorem hostReadOut_repeats (i : Nat) (ms : List Move) (s : State) :
    hostReadOut i (withMoves ms (hostReadOut i s)) = withMoves ms (hostReadOut i s) := by
  cases hdef : definedOutByte s i with
  | some v =>
    rw [hostReadOut_of_definedOutByte hdef]
    exact hostReadOut_of_definedOutByte hdef
  | none =>
    obtain ⟨x, d, heq⟩ := hostReadOut_answers i s
    rw [heq]
    exact hostReadOut_of_repeatsRead hdef (by simp [repeatsRead])

/-- Every read answers, and besides its answer at most counts a draw. -/
theorem hostAccess_read_answers {a : HostAccess} (h : a.IsRead) (s : State) :
    ∃ x d, hostAccess a s = .next (withReply a x { s with outDraws := d }) := by
  rcases h with ⟨i, rfl⟩ | ⟨i, rfl⟩ | ⟨o, w, rfl⟩
  · exact ⟨_, s.outDraws, rfl⟩
  · obtain ⟨x, d, heq⟩ := hostReadOut_answers i s
    exact ⟨x, d, congrArg _ heq⟩
  · exact ⟨_, s.outDraws, rfl⟩

/-- Every read, repeated with no other move between, changes nothing more (rule R59). -/
theorem hostAccess_read_repeats {a : HostAccess} (h : a.IsRead) {s t : State} (hst : hostAccess a s = .next t)
    (ms : List Move) : hostAccess a (withMoves ms t) = .next (withMoves ms t) := by
  rcases h with ⟨i, rfl⟩ | ⟨i, rfl⟩ | ⟨o, w, rfl⟩ <;> cases hst
  · rfl
  · exact congrArg _ (hostReadOut_repeats i ms s)
  · rfl

/-! ## Host writes other than START (rules R36, R54, R192, R195 to R198) -/

theorem Reg.named_eq_ctrl {o w : Nat} (h : Reg.named o w = some .ctrl) : o = 0x00 ∧ w = 4 := by
  unfold Reg.named at h
  split at h
  · rename_i hn
    refine ⟨?_, hn.1⟩
    unfold Reg.atOffset at h
    split at h <;> simp_all
  · cases h

/-- A value without the START bit is CTRL_NOP, which has no effect (rule R192). -/
theorem exec_decodeCtrl_of_start_clear {v : Word} (h : v.getLsbD 0 = false) (s : State) :
    exec (decodeCtrl v) s = .next s := by
  rw [decodeCtrl, h]
  rfl

/-- A register write that is no START changes at most IN_LEN. -/
theorem hostWriteReg_changes_only_inLen {o w : Nat} {v : Word} (notStart : o = 0x00 → w = 4 → v.getLsbD 0 = false)
    {s t : State} (h : hostWriteReg o w v s = .next t) : ∃ n, t = { s with inLen := n } := by
  unfold hostWriteReg at h
  split at h
  case h_1 hctrl =>
    obtain ⟨ho, hw⟩ := Reg.named_eq_ctrl hctrl
    rw [exec_decodeCtrl_of_start_clear (notStart ho hw)] at h
    cases h
    exact ⟨s.inLen, rfl⟩
  case h_2 =>
    unfold hostWriteInLen at h
    split at h <;> cases h
    · exact ⟨s.inLen, rfl⟩
    · exact ⟨v, rfl⟩
  all_goals
    cases h
    exact ⟨s.inLen, rfl⟩

theorem hostWriteIn_changes_only_inBuf (i : Nat) (v : Byte) (s : State) :
    ∃ m, hostWriteIn i v s = { s with inBuf := m } := by
  unfold hostWriteIn
  split
  · exact ⟨_, rfl⟩
  · exact ⟨s.inBuf, rfl⟩

/-- Every host access but START changes at most IN, IN_LEN and the model's own answer and draw count. -/
theorem hostAccess_changes_only_input {a : HostAccess}
    (notStart : ∀ v, a = .writeReg 0x00 4 v → v.getLsbD 0 = false) {s t : State} (h : hostAccess a s = .next t) :
    ∃ m n r d, t = { s with inBuf := m, inLen := n, reply := r, outDraws := d } := by
  have ofRead (hr : a.IsRead) : ∃ m n r d, t = { s with inBuf := m, inLen := n, reply := r, outDraws := d } := by
    obtain ⟨x, d, heq⟩ := hostAccess_read_answers hr s
    cases heq.symm.trans h
    exact ⟨s.inBuf, s.inLen, _, d, rfl⟩
  cases a with
  | readIn i => exact ofRead (.inl ⟨i, rfl⟩)
  | readOut i => exact ofRead (.inr (.inl ⟨i, rfl⟩))
  | readReg o w => exact ofRead (.inr (.inr ⟨o, w, rfl⟩))
  | writeIn i v =>
    obtain ⟨m, heq⟩ := hostWriteIn_changes_only_inBuf i v (clearReply s)
    cases h
    exact ⟨m, s.inLen, none, s.outDraws, heq⟩
  | writeOut i v =>
    cases h
    exact ⟨s.inBuf, s.inLen, none, s.outDraws, rfl⟩
  | writeReg o w v =>
    obtain ⟨n, rfl⟩ := hostWriteReg_changes_only_inLen (fun ho hw => notStart v (by rw [ho, hw])) h
    exact ⟨s.inBuf, n, none, s.outDraws, rfl⟩

/-- Settles O32: a read answers and, repeated, changes nothing; a write other than START changes at most the input. -/
theorem hostReadsHaveNoSideEffect : Obligations.HostReadsHaveNoSideEffect := by
  constructor
  · intro s a ms hread hs
    obtain ⟨x, d, hfirst⟩ := hostAccess_read_answers hread (withMoves (.host a :: ms) s)
    exact ⟨_, _, x, (step_of_host hs).trans hfirst,
      (step_of_host rfl).trans (hostAccess_read_repeats hread hfirst ms), rfl, rfl, rfl⟩
  · intro s t a ms hs notStart hstep
    obtain ⟨m, n, r, d, rfl⟩ := hostAccess_changes_only_input notStart ((step_of_host hs).symm.trans hstep)
    rfl

/-! ## The input of a running operation (rules R51, R65, R195, R197) -/

theorem SameSetting.refl (s : State) : SameSetting s s := ⟨rfl, rfl, fun _ => rfl, rfl, rfl, rfl, rfl⟩

/-- What a completed token writes, pushes and consumes is outside the setting. -/
theorem sameSetting_token (n : Nat) (out pushed : List Byte) (s : State) :
    SameSetting s (advance n (pushAll pushed (putAll out s))) := by
  rw [pushAll_eq, putAll_eq]
  exact { SameSetting.refl s with }

/-- No core step changes the setting. -/
theorem sameSetting_of_coreEffect {s t : State} (e : CoreEffect s t) : SameSetting s t := by
  cases e with
  | finished _ _ heq => exact heq ▸ { SameSetting.refl s with }
  | aborted code _ _ _ _ heq => exact heq ▸ { SameSetting.refl s with }
  | emitted out n _ _ _ _ _ _ _ heq => exact heq ▸ sameSetting_token n out _ s
  | executed out n _ _ _ _ _ heq => exact heq ▸ sameSetting_token n out out s

/-- START keeps the input and its length (rule R191). -/
theorem sameSetting_startOperation (op : Op) (s : State) : SameSetting s (startOperation op s) := by
  rcases startOperation_cases op s with ⟨_, heq⟩ | ⟨_, _, heq⟩ | ⟨_, _, heq⟩ <;> rw [heq]
  · exact SameSetting.refl s
  · exact { SameSetting.refl s with }
  · exact { SameSetting.refl s with }

theorem cfg_of_hostEffect {s t : State} (e : HostEffect s t) : t.cfg = s.cfg := by
  cases e with
  | quiet _ _ heq => rw [heq]
  | wroteIn _ _ _ _ heq => rw [heq]
  | wroteInLen _ _ heq => rw [heq]
  | started op heq => rw [heq]; exact (sameSetting_startOperation op (clearReply s)).cfg

/-- The host's writes of IN and IN_LEN are ignored while BUSY, and START keeps both. -/
theorem input_of_hostEffect_busy {s t : State} (e : HostEffect s t) (busy : s.phase = .busy) :
    t.inLen = s.inLen ∧ ∀ a, inByte t a = inByte s a := by
  cases e with
  | quiet _ _ heq => exact heq ▸ ⟨rfl, fun _ => rfl⟩
  | wroteIn _ _ free => exact absurd busy free
  | wroteInLen _ free => exact absurd busy free
  | started op heq =>
    have keep := sameSetting_startOperation op (clearReply s)
    exact heq ▸ ⟨keep.inLen, keep.inBytes⟩

theorem not_coreMoves_of_host {s : State} {a : HostAccess} {ms : List Move} (h : s.schedule = .host a :: ms) :
    ¬ coreMoves s := by
  simp [coreMoves, h]

/-- Settles O39, by cases on what one step can do. -/
theorem inputIsFixedWhileBusy : Obligations.InputIsFixedWhileBusy := by
  intro s t hstep
  cases step_effect hstep with
  | core _ effect =>
    have keep := sameSetting_of_coreEffect effect
    exact ⟨keep.cfg, fun _ _ => ⟨keep.inLen, keep.inBytes⟩⟩
  | host a ms hs effect =>
    have hcfg := cfg_of_hostEffect effect
    have hinput := input_of_hostEffect_busy effect
    exact ⟨hcfg, fun _ hor => hinput (hor.resolve_right (not_coreMoves_of_host hs))⟩
  | reset ms hs heq => exact ⟨by rw [heq]; rfl, fun hne => absurd (by rw [hs]; rfl) hne⟩

end Sys2Proof.Machine

/-! # Encoding: what the decoder reads and what it refuses (30_encoding.md) -/

namespace Sys2Proof

/-! ## The token decoder, one equation per outcome (rules R71 to R73, R77, R162, R163) -/

theorem decodeToken_lit (v : Byte) (rest : List Byte) : decodeToken (0x00#8 :: v :: rest) = .ok (.lit v, rest) := rfl

theorem decodeToken_matchTok (hi lo len : Byte) (rest : List Byte) :
    decodeToken (0x01#8 :: hi :: lo :: len :: rest) = .ok (.matchTok (assembleOffset hi lo) len, rest) := rfl

theorem decodeToken_truncLit : decodeToken [0x00#8] = .error .truncLit := rfl

theorem decodeToken_truncMatch {tail : List Byte} (h : tail.length < 3) :
    decodeToken (0x01#8 :: tail) = .error .truncMatch := by
  match tail, h with
  | [], _ | [_], _ | [_, _], _ => rfl

theorem decodeToken_badDisc {disc : Byte} (h : 2 ≤ disc.toNat) (tail : List Byte) :
    decodeToken (disc :: tail) = .error .badDisc := by
  have notLit : disc ≠ 0x00#8 := by rintro rfl; exact absurd h (by decide)
  have notMatch : disc ≠ 0x01#8 := by rintro rfl; exact absurd h (by decide)
  simp only [decodeToken, if_neg notLit, if_neg notMatch]

/-- The decoder reads a token only from that token's own bytes. -/
theorem decodeToken_eq_ok {bytes rest : List Byte} {i : Instr} (h : decodeToken bytes = .ok (i, rest)) :
    (∃ v, i = .lit v ∧ bytes = 0x00#8 :: v :: rest) ∨
    ∃ hi lo len, i = .matchTok (assembleOffset hi lo) len ∧ bytes = 0x01#8 :: hi :: lo :: len :: rest := by
  unfold decodeToken at h
  repeat' split at h
  all_goals cases h
  · subst_vars
    exact .inl ⟨_, rfl, rfl⟩
  · subst_vars
    exact .inr ⟨_, _, _, rfl, rfl⟩

/-- What the decoder reads of a stream is an encoding and what follows it, and every encoding is read. -/
theorem decodeToken_eq_ok_iff {bytes rest : List Byte} {i : Instr} :
    decodeToken bytes = .ok (i, rest) ↔ ∃ own, encode i = .stream own ∧ bytes = own ++ rest := by
  constructor
  · intro h
    obtain ⟨v, rfl, rfl⟩ | ⟨hi, lo, len, rfl, rfl⟩ := decodeToken_eq_ok h
    · exact ⟨_, rfl, rfl⟩
    · exact ⟨_, rfl, by simp⟩
  · rintro ⟨own, henc, rfl⟩
    cases i with
    | lit v => cases henc; rfl
    | matchTok off len =>
      cases henc
      simp [decodeToken_matchTok]
    | startEncode r => cases henc
    | startDecode r => cases henc
    | ctrlNop r => cases henc

/-! ## The command decoder (rules R33, R81) -/

/-- Joining the part of a word above its low m bits to those bits gives the word back. -/
theorem extractLsb'_append_of_low {n m : Nat} {v : BitVec (n + m)} {b : BitVec m} (h : v.extractLsb' 0 m = b) :
    v.extractLsb' m n ++ b = v := by
  rw [← h, BitVec.extractLsb'_append_extractLsb'_eq_extractLsb' (Nat.zero_add m).symm, BitVec.extractLsb'_eq_self]

/-- A word masked to its low m bits is b exactly when the word ends in b. -/
theorem exists_append_eq_iff {n m : Nat} (v : BitVec (n + m)) (b : BitVec m) :
    v &&& (BitVec.allOnes m).setWidth (n + m) = b.setWidth (n + m) ↔ ∃ r : BitVec n, r ++ b = v := by
  have masked : v &&& (BitVec.allOnes m).setWidth (n + m) = (v.extractLsb' 0 m).setWidth (n + m) := by
    ext i hi
    simp [BitVec.getLsbD_eq_getElem hi, Bool.and_comm]
  rw [masked]
  constructor
  · intro h
    have low : v.extractLsb' 0 m = b := by simpa using congrArg (BitVec.setWidth m) h
    exact ⟨_, extractLsb'_append_of_low low⟩
  · rintro ⟨r, rfl⟩
    rw [BitVec.extractLsb'_append_eq_right]

theorem extractLsb'_one_bit {w : Nat} (v : BitVec w) (k : Nat) : v.extractLsb' k 1 = BitVec.ofBool (v.getLsbD k) := by
  ext i hi
  obtain rfl : i = 0 := by omega
  simp

theorem extractLsb'_low_two_bits {w : Nat} (v : BitVec w) :
    v.extractLsb' 0 2 = BitVec.ofBool (v.getLsbD 1) ++ BitVec.ofBool (v.getLsbD 0) := by
  rw [← extractLsb'_one_bit, ← extractLsb'_one_bit,
    BitVec.extractLsb'_append_extractLsb'_eq_extractLsb' (Nat.zero_add 1).symm]

theorem decodeCtrl_startEncode (r : BitVec 30) : decodeCtrl (r ++ 0b01#2) = .startEncode r := by
  simp only [decodeCtrl, BitVec.getLsbD_append, BitVec.extractLsb'_append_eq_left]
  rfl

theorem decodeCtrl_startDecode (r : BitVec 30) : decodeCtrl (r ++ 0b11#2) = .startDecode r := by
  simp only [decodeCtrl, BitVec.getLsbD_append, BitVec.extractLsb'_append_eq_left]
  rfl

theorem decodeCtrl_ctrlNop (r : BitVec 31) : decodeCtrl (r ++ 0#1) = .ctrlNop r := by
  simp only [decodeCtrl, BitVec.getLsbD_append, BitVec.extractLsb'_append_eq_left]
  rfl

/-- No bit of a CTRL value is lost: the command bits are the instruction's, the others its ignored bits. -/
theorem encode_decodeCtrl (v : Word) : encode (decodeCtrl v) = .ctrl v := by
  have low2 := extractLsb'_low_two_bits v
  have low1 := extractLsb'_one_bit v 0
  unfold decodeCtrl
  cases start : v.getLsbD 0 with
  | false =>
    rw [start] at low1
    exact congrArg Encoded.ctrl (extractLsb'_append_of_low low1)
  | true =>
    cases op : v.getLsbD 1 with
    | false =>
      rw [start, op] at low2
      exact congrArg Encoded.ctrl (extractLsb'_append_of_low low2)
    | true =>
      rw [start, op] at low2
      exact congrArg Encoded.ctrl (extractLsb'_append_of_low low2)

/-- A CTRL value decodes to an instruction exactly when it is that instruction's encoding. -/
theorem decodeCtrl_eq_iff {v : Word} {i : Instr} : decodeCtrl v = i ↔ encode i = .ctrl v := by
  constructor
  · rintro rfl
    exact encode_decodeCtrl v
  · intro h
    cases i with
    | lit v => cases h
    | matchTok off len => cases h
    | startEncode r => cases h; exact decodeCtrl_startEncode r
    | startDecode r => cases h; exact decodeCtrl_startDecode r
    | ctrlNop r => cases h; exact decodeCtrl_ctrlNop r

/-! ## Decode against encode (30_encoding.md sections 1 to 5) -/

/-- Settles O1: streams by the tokens' own bytes, CTRL values by the parts of the word. -/
theorem decodeReadsExactlyWhatEncodeWrites : Obligations.DecodeReadsExactlyWhatEncodeWrites := by
  refine ⟨fun i bytes rest => decodeToken_eq_ok_iff, fun i v rest => ?_⟩
  rw [← decodeCtrl_eq_iff]
  simp [decode, eq_comm]

/-- Settles O2: the decoder's equations, and what a token that was read consists of. -/
theorem firstByteTellsTokenLength : Obligations.FirstByteTellsTokenLength := by
  intro disc tail
  refine ⟨?_, ?_, fun h => decodeToken_badDisc h tail, ?_, ?_⟩
  · rintro rfl i rest h
    obtain ⟨v, -, heq⟩ | ⟨hi, lo, len, -, heq⟩ := decodeToken_eq_ok h
    · exact ⟨[0x00#8, v], rfl, heq⟩
    · cases heq
  · rintro rfl i rest h
    obtain ⟨v, -, heq⟩ | ⟨hi, lo, len, -, heq⟩ := decodeToken_eq_ok h
    · cases heq
    · exact ⟨[0x01#8, hi, lo, len], rfl, heq⟩
  · rintro rfl hlen
    match tail, hlen with
    | v :: rest, _ => exact ⟨v, rest, decodeToken_lit v rest⟩
  · rintro rfl hlen
    match tail, hlen with
    | hi :: lo :: len :: rest, _ => exact ⟨_, len, rest, decodeToken_matchTok hi lo len rest⟩

/-- Settles O3. -/
theorem offsetIsAssembledBigEndian : Obligations.OffsetIsAssembledBigEndian := fun hi lo len rest =>
  ⟨assembleOffset hi lo, decodeToken_matchTok hi lo len rest, assembleOffset_toNat hi lo⟩

/-- Settles O4, by running the decoder. -/
theorem sampleWordsDecode : Obligations.SampleWordsDecode := by
  unfold Obligations.SampleWordsDecode
  decide

/-- Settles O5: a word decodes to a command exactly when it ends in the command's bits. -/
theorem commandsAreDecodedFromTwoBits : Obligations.CommandsAreDecodedFromTwoBits := by
  intro v
  simp only [decodeCtrl_eq_iff, encode, Encoded.ctrl.injEq]
  exact ⟨exists_append_eq_iff (n := 30) v 0b01#2, exists_append_eq_iff (n := 30) v 0b11#2,
    exists_append_eq_iff (n := 31) v 0#1⟩

end Sys2Proof

namespace Sys2Proof.Machine

/-! ## The fetch of a token (rules R160, R161) -/

/-- Inside IN_LEN the fetch begins with the byte at IPOS; at most three bytes follow, none beyond IN_LEN. -/
theorem fetchBytes_eq_cons {s : State} (inside : s.ipos.toNat < s.inLen.toNat) :
    ∃ tail, fetchBytes s = inByte s s.ipos.toNat :: tail ∧
      tail.length = min 3 (s.inLen.toNat - s.ipos.toNat - 1) := by
  have count : min 4 (s.inLen.toNat - s.ipos.toNat) = min 3 (s.inLen.toNat - s.ipos.toNat - 1) + 1 := by omega
  rw [fetchBytes, count, List.range_succ_eq_map]
  exact ⟨_, rfl, by simp⟩

/-! ## The abort of a token that cannot be read (rules R212, R215) -/

theorem SameDatapath.refl (s : State) : SameDatapath s s := ⟨fun _ => rfl, rfl, rfl, rfl, rfl, fun _ => rfl⟩

theorem abortedWith_abort (e : ErrCode) (pos : Word) (s : State) : AbortedWith e.code.toNat pos s (abort e pos s) where
  ecode := rfl
  errPos := rfl
  outLen := rfl
  phase := rfl
  op := rfl
  datapath := { SameDatapath.refl s with }
  setting := { SameSetting.refl s with }

/-- In DECODE, short of IN_LEN, the core's step is DecodeToken (rule R203). -/
theorem coreStep_eq_decodeStep {s : State} (busy : s.phase = .busy) (op : s.op = .decode)
    (inside : s.ipos.toNat < s.inLen.toNat) : coreStep s = decodeStep s := by
  have notEnd : s.ipos ≠ s.inLen := fun h => by rw [h] at inside; exact Nat.lt_irrefl _ inside
  simp [coreStep, busy, op, notEnd, Nat.not_lt_of_gt inside]

/-- A fetch that holds no whole token takes its FormatError at IPOS. -/
theorem decodeStep_of_error {s : State} {e : DecodeError} {code : ErrCode}
    (unread : decodeToken (fetchBytes s) = .error e) (raised : fetchError e = some code) :
    decodeStep s = .next (abort code s.ipos s) := by
  simp [decodeStep, unread, raised]

/-- The step of a running DECODE whose fetch holds no whole token. -/
theorem step_aborts_of_error {s : State} (moves : coreMoves s) (busy : s.phase = .busy) (op : s.op = .decode)
    (inside : s.ipos.toNat < s.inLen.toNat) {e : DecodeError} {code : ErrCode}
    (unread : decodeToken (fetchBytes s) = .error e) (raised : fetchError e = some code) :
    ∃ t, step s = .next t ∧ AbortedWith code.code.toNat s.ipos (atCoreStep s) t := by
  refine ⟨_, ?_, abortedWith_abort code s.ipos (atCoreStep s)⟩
  rw [step_of_coreMoves moves, coreStep_eq_decodeStep (s := atCoreStep s) busy op inside]
  exact decodeStep_of_error (s := atCoreStep s) unread raised

/-- Settles O8: the fetched bytes are the first byte and what follows it inside IN_LEN, and the decoder names the
defect from these. -/
theorem malformedTokensRaiseFormatErrors : Obligations.MalformedTokensRaiseFormatErrors := by
  intro s moves busy op inside
  obtain ⟨tail, hfetch, hlen⟩ := fetchBytes_eq_cons inside
  refine ⟨fun bad => ?_, fun lit short => ?_, fun matchTok short => ?_⟩
  · have unread : decodeToken (fetchBytes s) = .error .badDisc := by rw [hfetch, decodeToken_badDisc bad]
    exact step_aborts_of_error moves busy op inside unread rfl
  · have empty : tail = [] := List.length_eq_zero_iff.mp (by omega)
    have unread : decodeToken (fetchBytes s) = .error .truncLit := by rw [hfetch, lit, empty, decodeToken_truncLit]
    exact step_aborts_of_error moves busy op inside unread rfl
  · have unread : decodeToken (fetchBytes s) = .error .truncMatch := by
      rw [hfetch, matchTok, decodeToken_truncMatch (by omega)]
    exact step_aborts_of_error moves busy op inside unread rfl

end Sys2Proof.Machine

/-! # The window: the pushed bytes, their lock step with the operation, and what a step reads (40_window.md) -/

namespace Sys2Proof.Machine

/-! ## Pushes (rules R102, R103, R105) -/

theorem SameStatus.refl (s : State) : SameStatus s s := ⟨rfl, rfl, rfl, rfl, rfl⟩

/-- Settles O12, by the equations of a push. -/
theorem histPushWritesOneEntry : Obligations.HistPushWritesOneEntry := fun v s =>
  ⟨_, rfl, by rw [histRead_histPush, if_pos rfl], fun i hi => by rw [histRead_histPush, if_neg hi],
    histPush_bpos_toNat v s, histPush_hfill_toNat v s, rfl, rfl, fun _ => rfl, { SameStatus.refl s with },
    { SameSetting.refl s with }⟩

@[simp] theorem backRead_clearWindow (s : State) (d : Nat) : backRead (clearWindow s) d = 0x00#8 := rfl

/-- Settles O13, by what a list of pushes leaves at each backward distance of the cleared window. -/
theorem windowHoldsTheLastBytesPushed : Obligations.WindowHoldsTheLastBytesPushed := by
  intro vs s
  have fill : (pushAll vs (clearWindow s)).hfill.toNat = min vs.length W := by
    rw [pushAll_hfill vs _ (by simp)]
    simp
  refine ⟨_, rfl, ?_, fill, fun d hd hfill => ?_, fun d hfill hW => ?_⟩
  · rw [pushAll_bpos]
    simp
  · rw [fill] at hfill
    have held := backRead_pushAll vs (clearWindow s) d hd (by omega)
    rw [dif_pos (by omega)] at held
    exact (congrArg some held).trans (List.getElem?_eq_getElem (by omega)).symm
  · rw [fill] at hfill
    have clear := backRead_pushAll vs (clearWindow s) d (by omega) hW
    rw [dif_neg (by omega)] at clear
    exact clear

/-! ## Lock step with the operation (rules R105, R106, R143) -/

@[simp] theorem pushAll_op (vs : List Byte) (s : State) : (pushAll vs s).op = s.op := by rw [pushAll_eq]
@[simp] theorem pushAll_ocnt (vs : List Byte) (s : State) : (pushAll vs s).ocnt = s.ocnt := by rw [pushAll_eq]
@[simp] theorem inByte_pushAll (vs : List Byte) (s : State) (a : Nat) : inByte (pushAll vs s) a = inByte s a := by
  rw [pushAll_eq]; rfl
@[simp] theorem outByte_pushAll (vs : List Byte) (s : State) (a : Nat) : outByte (pushAll vs s) a = outByte s a := by
  rw [pushAll_eq]; rfl
@[simp] theorem putAll_op (vs : List Byte) (s : State) : (putAll vs s).op = s.op := by rw [putAll_eq]
@[simp] theorem putAll_bpos (vs : List Byte) (s : State) : (putAll vs s).bpos = s.bpos := by rw [putAll_eq]
@[simp] theorem putAll_hfill (vs : List Byte) (s : State) : (putAll vs s).hfill = s.hfill := by rw [putAll_eq]
@[simp] theorem inByte_putAll (vs : List Byte) (s : State) (a : Nat) : inByte (putAll vs s) a = inByte s a := by
  rw [putAll_eq]; rfl
@[simp] theorem backRead_putAll (vs : List Byte) (s : State) (d : Nat) : backRead (putAll vs s) d = backRead s d := by
  rw [putAll_eq]; rfl
@[simp] theorem backRead_advance (n : Nat) (s : State) (d : Nat) : backRead (advance n s) d = backRead s d := rfl

/-- IPOS counts up without wrapping inside IN_LEN. -/
theorem advance_ipos_toNat {n : Nat} {s : State} (inside : s.ipos.toNat + n ≤ s.inLen.toNat) :
    (advance n s).ipos.toNat = s.ipos.toNat + n := by
  have := s.inLen.isLt
  rw [advance_ipos, BitVec.toNat_add, BitVec.toNat_ofNat]
  omega

/-- OCNT counts up without wrapping while the count fits its 32 bits. -/
theorem putAll_ocnt_toNat {vs : List Byte} {s : State} (fits : s.ocnt.toNat + vs.length < 2 ^ 32) :
    (putAll vs s).ocnt.toNat = s.ocnt.toNat + vs.length := by
  rw [putAll_ocnt, BitVec.toNat_add, BitVec.toNat_ofNat]
  omega

theorem pushCount_encode {s : State} (op : s.op = .encode) : pushCount s = s.ipos.toNat := by simp [pushCount, op]
theorem pushCount_decode {s : State} (op : s.op = .decode) : pushCount s = s.ocnt.toNat := by simp [pushCount, op]
theorem pushedByte_encode {s : State} (op : s.op = .encode) (k : Nat) : pushedByte s k = some (inByte s k) := by
  simp [pushedByte, op]
theorem pushedByte_decode {s : State} (op : s.op = .decode) (k : Nat) : pushedByte s k = outByte s k := by
  simp [pushedByte, op]

/-- A cleared window is in lock step with an operation that has pushed nothing. -/
theorem lockstep_of_clear {s : State} (hist : s.hist = []) (bpos : s.bpos = 0) (hfill : s.hfill = 0)
    (unpushed : pushCount s = 0) : Lockstep s where
  bpos := by simp [bpos, unpushed]
  hfill := by simp [hfill, unpushed]
  held := by
    intro d hd hle
    have zero : d = 0 := by simpa [hfill] using hle
    omega
  clear := by simp [backRead, histRead, hist]

/-- A token keeps the lock step when the bytes that it pushes are the next ones of the operation's sequence: the pushes
shift every distance by their number. -/
theorem lockstep_token {s t : State} (h : Lockstep s) {out pushed : List Byte} {n : Nat}
    (eq : t = advance n (pushAll pushed (putAll out s))) (count : pushCount t = pushCount s + pushed.length)
    (new : ∀ (k : Nat) (hk : k < pushed.length), pushedByte t (pushCount s + k) = some pushed[k])
    (old : ∀ k < pushCount s, pushedByte t k = pushedByte s k) : Lockstep t := by
  obtain ⟨cursor, filled, held, clear⟩ := h
  have fill : t.hfill.toNat = min (s.hfill.toNat + pushed.length) W := by
    rw [eq, advance_hfill, pushAll_hfill _ _ (fun _ => by rw [putAll_hfill]; omega), putAll_hfill]
  have shift : ∀ (d : Nat) (_ : 1 ≤ d) (_ : d ≤ W), backRead t d =
      if hd : d ≤ pushed.length then pushed[pushed.length - d]'(by omega) else backRead s (d - pushed.length) := by
    intro d hd hW
    rw [eq, backRead_advance, backRead_pushAll _ _ d hd hW, backRead_putAll]
  refine ⟨?_, ?_, fun d hd hle => ?_, fun d hlt hW => ?_⟩
  · rw [eq, advance_bpos, pushAll_bpos, putAll_bpos, ← eq, count, cursor, Nat.mod_add_mod]
  · rw [fill, count, filled]
    omega
  · rw [fill] at hle
    rw [shift d hd (by omega), count]
    by_cases pushedNow : d ≤ pushed.length
    · rw [dif_pos pushedNow, Nat.add_sub_assoc pushedNow, new (pushed.length - d) (by omega)]
    · have before : pushCount s + pushed.length - d = pushCount s - (d - pushed.length) := by omega
      rw [dif_neg pushedNow, before, held (d - pushed.length) (by omega) (by omega), old _ (by omega)]
  · rw [fill] at hlt
    rw [shift d (by omega) hW, dif_neg (by omega)]
    exact clear _ (by omega) (by omega)

/-- In ENCODE the consumed input bytes are pushed (rule R143). -/
theorem lockstep_emitted {s t : State} (h : Lockstep s) (op : s.op = .encode) {out : List Byte} {n : Nat}
    (inside : s.ipos.toNat + n ≤ s.inLen.toNat)
    (eq : t = advance n (pushAll ((List.range n).map (lookahead s)) (putAll out s))) : Lockstep t := by
  have op' : t.op = .encode := by simp [eq, op]
  have input : ∀ a, inByte t a = inByte s a := by simp [eq]
  refine lockstep_token h eq ?_ (fun k hk => ?_) (fun k _ => ?_)
  · rw [pushCount_encode op', pushCount_encode op, eq, advance_ipos_toNat (by simpa using inside)]
    simp
  · rw [pushedByte_encode op', pushCount_encode op, input]
    simp [lookahead]
  · rw [pushedByte_encode op', pushedByte_encode op, input]

/-- In DECODE the produced output bytes are pushed (rule R106). -/
theorem lockstep_executed {s t : State} (h : Lockstep s) (op : s.op = .decode) {out : List Byte} {n : Nat}
    (fits : s.ocnt.toNat + out.length < 2 ^ 32) (eq : t = advance n (pushAll out (putAll out s))) : Lockstep t := by
  have op' : t.op = .decode := by simp [eq, op]
  have output : ∀ a, outByte t a =
      if s.ocnt.toNat ≤ a then (out[a - s.ocnt.toNat]?).or (outByte s a) else outByte s a := by
    intro a
    rw [eq, outByte_advance, outByte_pushAll, outByte_putAll out s fits]
  refine lockstep_token h eq ?_ (fun k hk => ?_) (fun k hk => ?_)
  · rw [pushCount_decode op', pushCount_decode op, eq, advance_ocnt, pushAll_ocnt, putAll_ocnt_toNat fits]
  · rw [pushedByte_decode op', pushCount_decode op, output]
    simp [hk]
  · rw [pushCount_decode op] at hk
    rw [pushedByte_decode op', pushedByte_decode op, output, if_neg (by omega)]

/-- START leaves a cleared window (rule R108), or is ignored, or does not run. -/
theorem lockstep_startOperation {s : State} (h : s.phase = .busy → Lockstep s) (op : Op)
    (busy : (startOperation op s).phase = .busy) : Lockstep (startOperation op s) := by
  rcases startOperation_cases op s with ⟨was, heq⟩ | ⟨_, _, heq⟩ | ⟨_, _, heq⟩ <;> rw [heq] at busy ⊢
  · exact h was
  · cases busy
  · exact lockstep_of_clear rfl rfl rfl (by cases op <;> rfl)

/-- Whatever the core does, it does while BUSY (rule R203). -/
theorem CoreEffect.busy {s t : State} (e : CoreEffect s t) : s.phase = .busy := by
  cases e <;> assumption

theorem lockstep_of_coreEffect {s t : State} (inv : Inv s) (h : Lockstep s) (e : CoreEffect s t)
    (busy : t.phase = .busy) : Lockstep t := by
  cases e with
  | finished _ _ heq => subst heq; cases busy
  | aborted _ _ _ _ _ heq => subst heq; cases busy
  | emitted out n _ _ op _ cap _ _ heq =>
    have hla := (laLen_le s).2
    exact lockstep_emitted h op (by omega) heq
  | executed out n _ _ op _ room heq =>
    have hcap : s.cfg.outCap < 2 ^ 32 := inv.cfg.2.2.2
    exact lockstep_executed h op (by omega) heq

theorem lockstep_of_hostEffect {s t : State} (h : s.phase = .busy → Lockstep s) (e : HostEffect s t)
    (busy : t.phase = .busy) : Lockstep t := by
  cases e with
  | quiet _ _ heq => subst heq; exact { h busy with }
  | wroteIn _ _ free _ heq => subst heq; exact absurd busy free
  | wroteInLen _ free heq => subst heq; exact absurd busy free
  | started op heq => subst heq; exact lockstep_startOperation (s := clearReply s) (fun b => { h b with }) op busy

/-- Settles O44, by cases on what one step can do. -/
theorem everyStepKeepsTheWindowInLockstep : Obligations.EveryStepKeepsTheWindowInLockstep := by
  intro s t inv h hstep busy
  cases step_effect hstep with
  | core _ effect =>
    have lock : Lockstep (atCoreStep s) := { h effect.busy with }
    exact lockstep_of_coreEffect (inv_clearReply (inv_withMoves inv _)) lock effect busy
  | host _ ms _ effect => exact lockstep_of_hostEffect (s := withMoves ms s) (fun b => { h b with }) effect busy
  | reset _ _ heq => subst heq; cases busy

/-! ## What a step reads of the window (rules R107, R108)

Two states that differ only in entries beyond HFILL stay so through every operation of a core step, because each reads
the window only at distances up to HFILL. -/

/-- Two states that differ only in HIST, and there only in entries not written since START. -/
structure SameButUnwritten (s u : State) : Prop where
  rest : u = { s with hist := u.hist }
  held : ∀ d, 1 ≤ d → d ≤ s.hfill.toNat → backRead u d = backRead s d

namespace SameButUnwritten

variable {s u : State}

protected theorem cfg (h : SameButUnwritten s u) : u.cfg = s.cfg := by rw [h.rest]
protected theorem phase (h : SameButUnwritten s u) : u.phase = s.phase := by rw [h.rest]
protected theorem op (h : SameButUnwritten s u) : u.op = s.op := by rw [h.rest]
protected theorem ipos (h : SameButUnwritten s u) : u.ipos = s.ipos := by rw [h.rest]
protected theorem inLen (h : SameButUnwritten s u) : u.inLen = s.inLen := by rw [h.rest]
protected theorem hfill (h : SameButUnwritten s u) : u.hfill = s.hfill := by rw [h.rest]
protected theorem lookahead (h : SameButUnwritten s u) : lookahead u = lookahead s := by rw [h.rest]; rfl
protected theorem laLen (h : SameButUnwritten s u) : laLen u = laLen s := by rw [h.rest]; rfl
protected theorem fetchBytes (h : SameButUnwritten s u) : fetchBytes u = fetchBytes s := by rw [h.rest]; rfl
protected theorem outFull (h : SameButUnwritten s u) (n : Nat) : outFull n u = outFull n s := by rw [h.rest]; rfl

/-! ### The named updates -/

protected theorem putOut (h : SameButUnwritten s u) (v : Byte) : SameButUnwritten (putOut v s) (putOut v u) where
  rest := by rw [h.rest]; rfl
  held := h.held

protected theorem advance (h : SameButUnwritten s u) (n : Nat) : SameButUnwritten (advance n s) (advance n u) where
  rest := by rw [h.rest]; rfl
  held := h.held

protected theorem abort (h : SameButUnwritten s u) (e : ErrCode) (pos : Word) :
    SameButUnwritten (abort e pos s) (abort e pos u) where
  rest := by rw [h.rest]; rfl
  held := h.held

protected theorem finish (h : SameButUnwritten s u) : SameButUnwritten (finish s) (finish u) where
  rest := by rw [h.rest]; rfl
  held := h.held

/-- A push writes the same byte in both states, and the one entry that comes within HFILL is that byte. -/
protected theorem histPush (h : SameButUnwritten s u) (v : Byte) : SameButUnwritten (histPush v s) (histPush v u) where
  rest := by rw [h.rest]; rfl
  held := by
    intro d hd hle
    rw [histPush_hfill_toNat] at hle
    rw [backRead_histPush v u d hd (by omega), backRead_histPush v s d hd (by omega)]
    split
    · rfl
    · exact h.held _ (by omega) (by omega)

protected theorem putAll (h : SameButUnwritten s u) (vs : List Byte) :
    SameButUnwritten (putAll vs s) (putAll vs u) := by
  induction vs generalizing s u with
  | nil => exact h
  | cons v vs ih => exact ih (h.putOut v)

protected theorem pushAll (h : SameButUnwritten s u) (vs : List Byte) :
    SameButUnwritten (pushAll vs s) (pushAll vs u) := by
  induction vs generalizing s u with
  | nil => exact h
  | cons v vs ih => exact ih (h.histPush v)

/-- START clears the window, so nothing of it is left to differ. -/
protected theorem startOperation (h : SameButUnwritten s u) (op : Op) :
    SameButUnwritten (startOperation op s) (startOperation op u) := by
  unfold Machine.startOperation
  rw [h.phase, h.cfg, h.inLen]
  split
  · exact h
  split
  · exact ⟨by rw [h.rest]; rfl, h.held⟩
  · exact ⟨by rw [h.rest]; rfl, fun _ _ _ => rfl⟩

/-! ### The tokens -/

protected theorem litExec (h : SameButUnwritten s u) (v : Byte) : SameButUnwritten (litExec v s) (litExec v u) := by
  unfold Machine.litExec
  rw [h.inLen, h.ipos, h.outFull]
  split
  · exact h.abort _ _
  split
  · exact h.abort _ _
  · exact ((h.putOut v).histPush v).advance 2

protected theorem emitLit (h : SameButUnwritten s u) (b : Byte) : SameButUnwritten (emitLit b s) (emitLit b u) := by
  unfold Machine.emitLit
  rw [h.ipos, h.outFull]
  split
  · exact h.abort _ _
  · exact ((h.putAll _).histPush b).advance 1

protected theorem emitMatch (h : SameButUnwritten s u) (off : BitVec 16) (len : Byte) :
    SameButUnwritten (emitMatch off len s) (emitMatch off len u) := by
  unfold Machine.emitMatch
  rw [h.ipos, h.outFull, h.lookahead]
  split
  · exact h.abort _ _
  · exact ((h.putAll _).pushAll _).advance _

/-- The copy reads at its one distance, which lies within HFILL and stays there as HFILL grows. -/
protected theorem matchCopy (h : SameButUnwritten s u) {off : Nat} (pos : 1 ≤ off) (hW : off ≤ W)
    (written : off ≤ s.hfill.toNat) (n : Nat) : SameButUnwritten (matchCopy off n s) (matchCopy off n u) := by
  induction n generalizing s u with
  | zero => exact h
  | succ n ih =>
    have step : SameButUnwritten (copyByte off s) (copyByte off u) := by
      rw [copyByte, copyByte, h.held off pos written]
      exact (h.putOut _).histPush _
    refine ih step ?_
    rw [copyByte, histPush_hfill_toNat, putOut_hfill]
    omega

protected theorem matchExec (h : SameButUnwritten s u) (off : BitVec 16) (len : Byte) :
    SameButUnwritten (matchExec off len s) (matchExec off len u) := by
  unfold Machine.matchExec
  rw [h.inLen, h.ipos, h.hfill, h.outFull]
  split
  · exact h.abort _ _
  split
  · exact h.abort _ _
  split
  · exact h.abort _ _
  split
  · exact h.abort _ _
  split
  · exact h.abort _ _
  · exact (h.matchCopy (by omega) (by omega) (by omega) _).advance 4

protected theorem whileBusy (h : SameButUnwritten s u) {s' u' t : State} (h' : SameButUnwritten s' u')
    (answers : whileBusy s s' = .next t) : ∃ v, whileBusy u u' = .next v ∧ SameButUnwritten t v := by
  unfold Machine.whileBusy at answers ⊢
  rw [h.phase]
  split at answers
  · cases answers
    exact ⟨u', if_pos ‹_›, h'⟩
  · cases answers

/-- No instruction reads an unwritten entry. -/
protected theorem exec (h : SameButUnwritten s u) {i : Instr} {t : State} (answers : exec i s = .next t) :
    ∃ v, exec i u = .next v ∧ SameButUnwritten t v := by
  cases i with
  | lit v =>
    refine h.whileBusy ?_ answers
    rw [h.op]
    split
    · exact h.litExec v
    · exact h.emitLit v
  | matchTok off len =>
    refine h.whileBusy ?_ answers
    rw [h.op]
    split
    · exact h.matchExec off len
    · exact h.emitMatch off len
  | startEncode r => cases answers; exact ⟨_, rfl, h.startOperation .encode⟩
  | startDecode r => cases answers; exact ⟨_, rfl, h.startOperation .decode⟩
  | ctrlNop r => cases answers; exact ⟨_, rfl, h⟩

/-! ### The detector -/

/-- A candidate within HFILL is compared at distances within HFILL, or with the lookahead. -/
protected theorem refByte (h : SameButUnwritten s u) {off : Nat} (written : off ≤ s.hfill.toNat) (k : Nat) :
    refByte u off k = refByte s off k := by
  by_cases hk : k < off
  · rw [refByte_eq_backRead u off k hk, refByte_eq_backRead s off k hk, h.held _ (by omega) (by omega)]
  · rw [Machine.refByte, Machine.refByte, if_neg hk, if_neg hk, h.lookahead]

protected theorem runFrom (h : SameButUnwritten s u) {off : Nat} (written : off ≤ s.hfill.toNat) (fuel k : Nat) :
    runFrom u off fuel k = runFrom s off fuel k := by
  induction fuel generalizing k with
  | zero => rfl
  | succ fuel ih => rw [Machine.runFrom, Machine.runFrom, h.lookahead, h.refByte written, ih]

protected theorem scan (h : SameButUnwritten s u) {n : Nat} (written : n ≤ s.hfill.toNat) : scan u n = scan s n := by
  induction n with
  | zero => rfl
  | succ n ih =>
    have run : runLength u (n + 1) = runLength s (n + 1) := by
      rw [runLength, runLength, h.laLen, h.runFrom written]
    rw [Machine.scan, Machine.scan, ih (by omega), run]

protected theorem selectToken (h : SameButUnwritten s u) : selectToken u = selectToken s := by
  have found : findMatch u = findMatch s := by rw [findMatch, findMatch, h.hfill, h.scan (Nat.le_refl _)]
  rw [Machine.selectToken, Machine.selectToken, found, h.lookahead]

/-! ### The core's step -/

protected theorem decodeStep (h : SameButUnwritten s u) {t : State} (answers : decodeStep s = .next t) :
    ∃ v, decodeStep u = .next v ∧ SameButUnwritten t v := by
  unfold Machine.decodeStep at answers ⊢
  rw [h.fetchBytes]
  split at answers
  · exact h.exec answers
  · split at answers
    · cases answers
      exact ⟨_, by rw [h.ipos], h.abort _ _⟩
    · cases answers

protected theorem coreStep (h : SameButUnwritten s u) {t : State} (answers : coreStep s = .next t) :
    ∃ v, coreStep u = .next v ∧ SameButUnwritten t v := by
  unfold Machine.coreStep at answers ⊢
  rw [h.phase, h.ipos, h.inLen, h.op]
  by_cases stopped : s.phase ≠ .busy
  · rw [if_pos stopped] at answers
    cases answers
  rw [if_neg stopped] at answers ⊢
  by_cases atEnd : s.ipos = s.inLen
  · rw [if_pos atEnd] at answers ⊢
    cases answers
    exact ⟨_, rfl, h.finish⟩
  rw [if_neg atEnd] at answers ⊢
  by_cases past : s.inLen.toNat < s.ipos.toNat
  · rw [if_pos past] at answers
    cases answers
  rw [if_neg past] at answers ⊢
  split at answers
  · rw [encodeStep] at answers ⊢
    rw [h.selectToken]
    exact h.exec answers
  · exact h.decodeStep answers

end SameButUnwritten

/-- Settles O14: the core's step keeps two states the same but for unwritten entries. The premise HFILL <= 4096 is not
needed: HistPush saturates and MATCH checks its offset against 4096. -/
theorem unwrittenEntriesAreNeverRead : Obligations.UnwrittenEntriesAreNeverRead := by
  intro s t other _ held answers
  have same : SameButUnwritten s { s with hist := other } := ⟨rfl, held⟩
  obtain ⟨u, hu, rest, held'⟩ := same.coreStep answers
  exact ⟨u, hu, by rw [rest], held'⟩

end Sys2Proof.Machine

/-! # The match detector: runs of candidates, the nearest longest run, and the token that ENCODE emits
(41_match_detector.md) -/

namespace Sys2Proof.Machine

/-! ## L(off), the run of a candidate (rules R123, R126) -/

/-- Every position inside the run matches. -/
theorem lookahead_eq_refByte_of_lt_runLength {s : State} {off k : Nat} (inside : k < runLength s off) :
    lookahead s k = refByte s off k := by
  obtain ⟨-, -, agree, -⟩ := runFrom_spec s off (laLen s) 0
  exact agree k (Nat.zero_le k) inside

/-- A run that ends short of the lookahead ends at a mismatch. -/
theorem lookahead_ne_refByte_at_runLength {s : State} {off : Nat} (short : runLength s off < laLen s) :
    lookahead s (runLength s off) ≠ refByte s off (runLength s off) := by
  obtain ⟨-, -, -, differ⟩ := runFrom_spec s off (laLen s) 0
  exact differ (by rwa [Nat.zero_add])

/-- Settles O15: what the inner loop computes, with LA_LEN written out. -/
theorem runLengthStopsAtTheFirstMismatch : Obligations.RunLengthStopsAtTheFirstMismatch := fun s off =>
  ⟨runLength_le s off, fun _ => lookahead_eq_refByte_of_lt_runLength, lookahead_ne_refByte_at_runLength⟩

/-- In ENCODE the fill never exceeds the input consumed, nor the window. -/
theorem Lockstep.hfill_encode {s : State} (lock : Lockstep s) (op : s.op = .encode) :
    s.hfill.toNat = min s.ipos.toNat W := by
  rw [lock.hfill, pushCount_encode op]

/-- In ENCODE a candidate's reference byte is the input byte off positions earlier: below off it is the byte pushed
off - k pushes ago, and in the overlap case the token's own byte. -/
theorem Lockstep.refByte_encode {s : State} (lock : Lockstep s) (op : s.op = .encode) {off : Nat}
    (candidate : off ≤ s.hfill.toNat) (k : Nat) : refByte s off k = inByte s (s.ipos.toNat - off + k) := by
  have fill := lock.hfill_encode op
  by_cases window : k < off
  · have held := lock.held (off - k) (by omega) (by omega)
    rw [pushedByte_encode op, pushCount_encode op] at held
    have earlier : s.ipos.toNat - (off - k) = s.ipos.toNat - off + k := by omega
    rw [refByte_eq_backRead s off k window, Option.some.inj held, earlier]
  · have own : s.ipos.toNat + (k - off) = s.ipos.toNat - off + k := by omega
    rw [refByte, if_neg window, lookahead, own]

/-- Settles O17: the run's two rules, read through the reference byte as an input byte. -/
theorem referenceByteIsEarlierInput : Obligations.ReferenceByteIsEarlierInput := by
  intro s op lock off _ candidate
  have ref := lock.refByte_encode op candidate
  refine ⟨fun k _ => ref k, runLength_le s off, fun k inside => ?_, fun short => ?_⟩
  · rw [← ref]
    exact lookahead_eq_refByte_of_lt_runLength inside
  · rw [← ref]
    exact lookahead_ne_refByte_at_runLength short

/-! ## FindMatch, the longest run and then the nearest offset (rule R124) -/

/-- Settles O16: what the outer loop computes over the candidates 1..HFILL. -/
theorem detectorTakesLongestThenNearest : Obligations.DetectorTakesLongestThenNearest := fun s =>
  ⟨(findMatch s).1, (findMatch s).2, rfl, scan_spec s s.hfill.toNat⟩

/-- best_len bounds every candidate's run. -/
theorem runLength_le_findMatch {s : State} {off : Nat} (pos : 1 ≤ off) (candidate : off ≤ s.hfill.toNat) :
    runLength s off ≤ (findMatch s).2 :=
  (scan_spec s s.hfill.toNat).1 off pos candidate

/-- best_len fits the lookahead's 18 bytes. -/
theorem findMatch_len_le (s : State) : (findMatch s).2 ≤ 18 := (scan_le s _).trans (laLen_le s).1

/-- A match that was found is a candidate with a run of best_len, and every nearer one has a shorter run. -/
theorem findMatch_found {s : State} (found : 1 ≤ (findMatch s).2) :
    1 ≤ (findMatch s).1 ∧ (findMatch s).1 ≤ s.hfill.toNat ∧ runLength s (findMatch s).1 = (findMatch s).2 ∧
      ∀ o, 1 ≤ o → o < (findMatch s).1 → runLength s o < (findMatch s).2 :=
  (scan_spec s s.hfill.toNat).2.1 found

/-- The nearest candidate with the longest run is the one that the detector finds. -/
theorem findMatch_eq {s : State} {off : Nat} (pos : 1 ≤ off) (candidate : off ≤ s.hfill.toNat)
    (matching : 1 ≤ runLength s off) (longest : ∀ o, 1 ≤ o → o ≤ s.hfill.toNat → runLength s o ≤ runLength s off)
    (nearest : ∀ o, 1 ≤ o → o < off → runLength s o < runLength s off) : findMatch s = (off, runLength s off) := by
  have atLeast := runLength_le_findMatch pos candidate
  obtain ⟨pos', candidate', run, nearest'⟩ := findMatch_found (Nat.le_trans matching atLeast)
  have len : (findMatch s).2 = runLength s off := Nat.le_antisymm (run ▸ longest _ pos' candidate') atLeast
  have notNearer : ¬ (findMatch s).1 < off := fun lt => (run.trans len).not_lt (nearest _ pos' lt)
  have notFarther : ¬ off < (findMatch s).1 := fun lt => len.symm.not_lt (nearest' off pos lt)
  exact Prod.ext (by omega) len

/-! ## The chosen token (rules R127, R129) -/

theorem selectToken_of_short {s : State} (short : (findMatch s).2 < 3) : selectToken s = .lit (lookahead s 0) :=
  if_neg (Nat.not_le_of_lt short)

/-- The found offset and length fit the fields of the MATCH. -/
theorem selectToken_of_long {s : State} (window : s.hfill.toNat ≤ W) (long : 3 ≤ (findMatch s).2) :
    ∃ (f : BitVec 16) (n : Byte), f.toNat = (findMatch s).1 ∧ n.toNat = (findMatch s).2 ∧
      selectToken s = .matchTok f n := by
  obtain ⟨-, candidate, -, -⟩ := findMatch_found (s := s) (by omega)
  have most := findMatch_len_le s
  rw [W_eq] at window
  exact ⟨_, _, Nat.mod_eq_of_lt (by omega), Nat.mod_eq_of_lt (by omega), if_pos long⟩

/-- What ENCODE can choose: a literal, or a MATCH within the ranges of rule R129. -/
theorem selectToken_cases {s : State} (window : s.hfill.toNat ≤ W) :
    selectToken s = .lit (lookahead s 0) ∨
    ∃ (f : BitVec 16) (n : Byte), selectToken s = .matchTok f n ∧ 3 ≤ n.toNat ∧ n.toNat ≤ 18 ∧
      1 ≤ f.toNat ∧ f.toNat ≤ s.hfill.toNat := by
  rcases Nat.lt_or_ge (findMatch s).2 3 with short | long
  · exact .inl (selectToken_of_short short)
  · obtain ⟨f, n, off, len, token⟩ := selectToken_of_long window long
    obtain ⟨pos, candidate, -, -⟩ := findMatch_found (s := s) (by omega)
    have most := findMatch_len_le s
    exact .inr ⟨f, n, token, by omega, by omega, by omega, by omega⟩

/-- The ranges of rule R129 are those of a well-formed MATCH (rule R6). -/
theorem matchTok_wellFormed_iff (f : BitVec 16) (n : Byte) :
    (Instr.matchTok f n).wellFormed = true ↔ (1 ≤ f.toNat ∧ f.toNat ≤ W) ∧ 3 ≤ n.toNat ∧ n.toNat ≤ 18 := by
  simp only [Instr.wellFormed, offsetInWindow, lengthInRange, Bool.and_eq_true, decide_eq_true_eq]
  exact Iff.rfl

/-- Settles O18: best_len is the run of a candidate, every candidate lies within HFILL, and HFILL within the window and
the consumed input. -/
theorem emittedTokensAreWellFormed : Obligations.EmittedTokensAreWellFormed := by
  refine ⟨fun s => ⟨scan_le s _, (laLen_le s).1⟩, fun s op lock found => ?_, fun s op lock => ?_⟩
  · obtain ⟨pos, candidate, -, -⟩ := findMatch_found found
    exact ⟨pos, candidate, by rw [lock.hfill_encode op, W_eq, Nat.min_comm]⟩
  · have fill := lock.hfill_encode op
    rcases selectToken_cases (s := s) (by omega) with token | ⟨f, n, token, least, most, pos, candidate⟩ <;> rw [token]
    · exact ⟨rfl, fun _ _ other => by cases other⟩
    · refine ⟨(matchTok_wellFormed_iff f n).mpr ⟨⟨pos, by omega⟩, least, most⟩, fun off len same => ?_⟩
      cases same
      rw [W_eq] at fill
      exact ⟨least, most, pos, by omega⟩

/-! ## The step of ENCODE (rules R127, R140) -/

/-- The detector reads neither the schedule nor the host's last answer. -/
theorem runFrom_atCoreStep (s : State) (off fuel k : Nat) :
    runFrom (atCoreStep s) off fuel k = runFrom s off fuel k := by
  have la : lookahead (atCoreStep s) = lookahead s := rfl
  have ref : refByte (atCoreStep s) = refByte s := rfl
  induction fuel generalizing k with
  | zero => rfl
  | succ fuel ih => rw [runFrom, runFrom, la, ref, ih]

theorem scan_atCoreStep (s : State) (n : Nat) : scan (atCoreStep s) n = scan s n := by
  induction n with
  | zero => rfl
  | succ n ih =>
    have run : runLength (atCoreStep s) (n + 1) = runLength s (n + 1) := runFrom_atCoreStep s _ _ _
    rw [scan, scan, ih, run]

theorem selectToken_atCoreStep (s : State) : selectToken (atCoreStep s) = selectToken s := by
  have found : findMatch (atCoreStep s) = findMatch s := scan_atCoreStep s _
  have la : lookahead (atCoreStep s) = lookahead s := rfl
  rw [selectToken, selectToken, found, la]

/-- In ENCODE, short of IN_LEN, the core's step is EncodeToken (rule R203). -/
theorem coreStep_eq_encodeStep {s : State} (busy : s.phase = .busy) (op : s.op = .encode)
    (inside : s.ipos.toNat < s.inLen.toNat) : coreStep s = encodeStep s := by
  have notEnd : s.ipos ≠ s.inLen := fun h => by rw [h] at inside; exact Nat.lt_irrefl _ inside
  simp [coreStep, busy, op, notEnd, Nat.not_lt_of_gt inside]

/-- A running ENCODE emits the chosen token. -/
theorem step_eq_exec_selectToken {s : State} (moves : coreMoves s) (busy : s.phase = .busy) (op : s.op = .encode)
    (inside : s.ipos.toNat < s.inLen.toNat) : step s = exec (selectToken s) (atCoreStep s) := by
  rw [step_of_coreMoves moves, coreStep_eq_encodeStep (s := atCoreStep s) busy op inside, encodeStep,
    selectToken_atCoreStep]

/-- Settles O7: with every run below 3 the detector's best is below 3 as well; otherwise it is the given offset. -/
theorem encodeStepEmitsTheChosenToken : Obligations.EncodeStepEmitsTheChosenToken := by
  intro s moves busy op inside window
  rw [step_eq_exec_selectToken moves busy op inside]
  refine ⟨fun short => ?_, fun off pos candidate long longest nearest => ?_⟩
  · have best : (findMatch s).2 < 3 := by
      by_contra long
      obtain ⟨pos, candidate, run, -⟩ := findMatch_found (s := s) (by omega)
      exact long (run ▸ short _ pos candidate)
    rw [selectToken_of_short best]
    rfl
  · have best := findMatch_eq pos candidate (by omega) longest nearest
    obtain ⟨f, n, foff, len, token⟩ := selectToken_of_long window (by rw [best]; exact long)
    rw [best] at foff len
    exact ⟨f, n, foff, len, by rw [token]⟩

end Sys2Proof.Machine

/-! # ENCODE: what the emission of a token writes, and the run of a whole ENCODE (42_encode.md) -/

namespace Sys2Proof.Machine

/-! ## A completed token (rules R52, R102, R143) -/

/-- OUT and OCNT after output bytes that OCNT has room for, whatever is pushed and consumed with them. -/
theorem put_token {out : List Byte} {s : State} (fits : s.ocnt.toNat + out.length < 2 ^ 32) (pushed : List Byte)
    (n : Nat) : Put out s (advance n (pushAll pushed (putAll out s))) where
  written := by
    intro k hk
    rw [outByte_advance, outByte_pushAll, outByte_putAll out s fits, if_pos (Nat.le_add_right _ _)]
    simp [hk]
  kept := by
    intro a outside
    rw [outByte_advance, outByte_pushAll, outByte_putAll out s fits]
    split
    · rw [List.getElem?_eq_none (by omega), Option.none_or]
    · rfl
  ocnt := by rw [advance_ocnt, pushAll_ocnt, putAll_ocnt_toNat fits]

/-- Of the last 4096 pushed bytes, byte k stands k entries from where the cursor was (rule R103). -/
theorem histRead_pushAll_written (vs : List Byte) (s : State) (k : Nat) (hk : k < vs.length)
    (last : k + W ≥ vs.length) : histRead (pushAll vs s) (s.bpos + BitVec.ofNat 12 k) = vs[k] := by
  have index : s.bpos + BitVec.ofNat 12 k = backIndex (pushAll vs s) (vs.length - k) := by
    apply BitVec.eq_of_toNat_eq
    rw [W_eq] at last
    simp only [backIndex, BitVec.toNat_sub, BitVec.toNat_add, BitVec.toNat_ofNat, pushAll_bpos, W_eq]
    omega
  have held := backRead_pushAll vs s (vs.length - k) (by omega) (by omega)
  rw [dif_pos (Nat.sub_le _ _)] at held
  rw [index]
  exact held.trans (by congr 1; omega)

/-- Pushes touch only the entries that the cursor passes. -/
theorem histRead_pushAll_kept (vs : List Byte) (s : State) (i : BitVec 12)
    (passed : ∀ k < vs.length, i ≠ s.bpos + BitVec.ofNat 12 k) : histRead (pushAll vs s) i = histRead s i := by
  induction vs generalizing s with
  | nil => rfl
  | cons v vs ih =>
    have cursor : i ≠ s.bpos := by simpa using passed 0 (by simp)
    rw [pushAll_cons, ih, histRead_histPush, if_neg cursor]
    intro k hk
    have next : (histPush v s).bpos + BitVec.ofNat 12 k = s.bpos + BitVec.ofNat 12 (k + 1) := by
      rw [histPush_bpos, BitVec.ofNat_add, BitVec.add_comm (BitVec.ofNat 12 k), ← BitVec.add_assoc]
      rfl
    exact next ▸ passed (k + 1) (by simpa using hk)

/-- The window after a token's pushes, whatever is written and consumed with them. -/
theorem pushed_token {pushed : List Byte} {s : State} (window : pushed = [] → s.hfill.toNat ≤ W) (out : List Byte)
    (n : Nat) : Pushed pushed s (advance n (pushAll pushed (putAll out s))) where
  written := by
    intro k hk last
    rw [histRead_advance, ← putAll_bpos out s]
    exact histRead_pushAll_written pushed (putAll out s) k hk last
  kept := by
    intro i passed
    rw [← putAll_bpos out s] at passed
    rw [histRead_advance, histRead_pushAll_kept pushed (putAll out s) i passed, putAll_eq]
    rfl
  bpos := by rw [advance_bpos, pushAll_bpos, putAll_bpos]
  hfill := by rw [advance_hfill, pushAll_hfill _ _ (by simpa using window), putAll_hfill]

/-- A token's bytes, pushes and advance are a completed token when OUT and IN have room for them. -/
theorem tokenDone_token {out pushed : List Byte} {n : Nat} {s : State} (cfg : s.cfg.wf)
    (room : s.ocnt.toNat + out.length ≤ s.cfg.outCap) (inside : s.ipos.toNat + n ≤ s.inLen.toNat)
    (window : pushed = [] → s.hfill.toNat ≤ W) :
    TokenDone out pushed n s (advance n (pushAll pushed (putAll out s))) where
  put := put_token (Nat.lt_of_le_of_lt room cfg.2.2.2) pushed n
  push := pushed_token window out n
  ipos := by rw [advance_ipos_toNat (by simpa using inside), pushAll_ipos, putAll_ipos]
  status := by
    rw [pushAll_eq, putAll_eq]
    exact { SameStatus.refl s with }
  setting := sameSetting_token n out pushed s

/-! ## The emission of LIT and MATCH (rules R141, R142) -/

theorem exec_lit_of_encode {s : State} (busy : s.phase = .busy) (op : s.op = .encode) (b : Byte) :
    exec (.lit b) s = .next (emitLit b s) := by
  simp [exec, execLit, whileBusy, busy, op]

theorem exec_matchTok_of_encode {s : State} (busy : s.phase = .busy) (op : s.op = .encode) (off : BitVec 16)
    (len : Byte) : exec (.matchTok off len) s = .next (emitMatch off len s) := by
  simp [exec, execMatchTok, whileBusy, busy, op]

theorem outFull_iff (n : Nat) (s : State) : outFull n s = true ↔ s.cfg.outCap < s.ocnt.toNat + n := by
  simp [outFull]

theorem emitLit_of_full {s : State} (full : s.cfg.outCap < s.ocnt.toNat + 2) (b : Byte) :
    emitLit b s = abort .capacityOut s.ipos s :=
  if_pos ((outFull_iff 2 s).mpr full)

theorem emitLit_of_room {s : State} (room : s.ocnt.toNat + 2 ≤ s.cfg.outCap) (b : Byte) :
    emitLit b s = advance 1 (pushAll [b] (putAll [0x00#8, b] s)) :=
  if_neg (by rw [outFull_iff]; omega)

theorem emitMatch_of_full {s : State} (full : s.cfg.outCap < s.ocnt.toNat + 4) (off : BitVec 16) (len : Byte) :
    emitMatch off len s = abort .capacityOut s.ipos s :=
  if_pos ((outFull_iff 4 s).mpr full)

theorem emitMatch_of_room {s : State} (room : s.ocnt.toNat + 4 ≤ s.cfg.outCap) (off : BitVec 16) (len : Byte) :
    emitMatch off len s = advance len.toNat (pushAll ((List.range len.toNat).map (lookahead s))
      (putAll [0x01#8, offsetHigh off, offsetLow off, len] s)) :=
  if_neg (by rw [outFull_iff]; omega)

theorem offsetHigh_eq (off : BitVec 16) : offsetHigh off = BitVec.ofNat 8 (off.toNat / 256) := by
  rw [← offsetHigh_toNat, BitVec.ofNat_toNat, BitVec.setWidth_eq]

theorem offsetLow_eq (off : BitVec 16) : offsetLow off = BitVec.ofNat 8 (off.toNat % 256) := by
  rw [← offsetLow_toNat, BitVec.ofNat_toNat, BitVec.setWidth_eq]

/-- Settles O24, by whether OUT has room for two more bytes. -/
theorem litIsEmitted : Obligations.LitIsEmitted := by
  intro b s cfg busy op inside
  rw [exec_lit_of_encode busy op]
  refine ⟨fun full => ?_, fun room => ?_⟩
  · rw [emitLit_of_full full]
    exact ⟨_, rfl, abortedWith_abort .capacityOut s.ipos s⟩
  · rw [emitLit_of_room room]
    exact ⟨_, rfl, tokenDone_token cfg room inside (by simp)⟩

/-- Settles O25, by whether OUT has room for four more bytes. -/
theorem matchIsEmitted : Obligations.MatchIsEmitted := by
  intro off len s cfg busy op window inside
  rw [exec_matchTok_of_encode busy op]
  refine ⟨fun full => ?_, fun room => ?_⟩
  · rw [emitMatch_of_full full]
    exact ⟨_, rfl, abortedWith_abort .capacityOut s.ipos s⟩
  · rw [emitMatch_of_room room, ← offsetHigh_eq, ← offsetLow_eq]
    exact ⟨_, rfl, tokenDone_token cfg room inside (fun _ => window)⟩

/-! ## The errors of ENCODE (rule R148) -/

/-- An ENCODE step that ends in ERROR is the abort with CAPACITY_OUT; only the abort ends there. -/
theorem CoreEffect.ecode_of_encode {s t : State} (e : CoreEffect s t) (op : s.op = .encode)
    (failed : t.phase = .error) : t.ecode.toNat = 7 := by
  cases e with
  | finished _ _ heq => subst heq; cases failed
  | aborted code _ _ _ capacity heq => rw [heq, abort_ecode, capacity op]; rfl
  | emitted _ _ busy _ _ _ _ _ _ heq => simp [heq, busy] at failed
  | executed _ _ _ _ decode _ _ _ => rw [op] at decode; cases decode

/-- Settles O28: the core's step by its effects, START by its three cases. -/
theorem encodeRaisesOnlyCapacityErrors : Obligations.EncodeRaisesOnlyCapacityErrors := by
  refine ⟨fun s t moves op hstep failed => ?_, fun s t r free hexec failed => ?_⟩
  · rw [step_of_coreMoves moves] at hstep
    exact (coreStep_effect hstep).ecode_of_encode op failed
  · have started : startOperation .encode s = t := by injection hexec
    rcases startOperation_cases .encode s with ⟨busy, -⟩ | ⟨-, -, heq⟩ | ⟨-, -, heq⟩
    · exact absurd busy free
    · rw [← started, heq]
      exact ⟨rfl, rfl⟩
    · rw [← started, heq] at failed
      cases failed

/-! ## Runs of the core alone -/

theorem core_run_succ {s t : State} (h : step s = .next t) (k : Nat) :
    Sys2Proof.core.run (k + 1) s = Sys2Proof.core.run k t := by
  have hcore : Sys2Proof.core.step s = .next t := h
  simp only [Host.Core.run, hcore]

theorem coreStep_at_end {s : State} (busy : s.phase = .busy) (atEnd : s.ipos = s.inLen) :
    coreStep s = .next (finish s) := by
  simp [coreStep, busy, atEnd]

/-! ## A whole ENCODE (rules R147, R224) -/

/-- EncodeToken turns n input bytes into at most 2n output bytes, if OUT has room for these. -/
theorem encodeStep_emits {s : State} (busy : s.phase = .busy) (op : s.op = .encode)
    (inside : s.ipos.toNat < s.inLen.toNat) (window : s.hfill.toNat ≤ W) :
    ∃ out n, 1 ≤ n ∧ s.ipos.toNat + n ≤ s.inLen.toNat ∧ out.length ≤ 2 * n ∧
      (s.ocnt.toNat + out.length ≤ s.cfg.outCap →
        encodeStep s = .next (advance n (pushAll ((List.range n).map (lookahead s)) (putAll out s)))) := by
  rcases Nat.lt_or_ge (findMatch s).2 3 with short | long
  · refine ⟨[0x00#8, lookahead s 0], 1, Nat.le_refl 1, inside, Nat.le_refl 2, fun room => ?_⟩
    rw [encodeStep, selectToken_of_short short, exec_lit_of_encode busy op, emitLit_of_room room]
    rfl
  · obtain ⟨off, len, -, hlen, token⟩ := selectToken_of_long window long
    have fits : (findMatch s).2 ≤ s.inLen.toNat - s.ipos.toNat := (scan_le s _).trans (laLen_le s).2
    refine ⟨[0x01#8, offsetHigh off, offsetLow off, len], len.toNat, by omega, by omega,
      by simp only [List.length_cons, List.length_nil]; omega, fun room => ?_⟩
    rw [encodeStep, token, exec_matchTok_of_encode busy op, emitMatch_of_room room]

/-- An ENCODE that runs alone, with room for two bytes per input byte, and has written at most two bytes for each input
byte consumed. -/
structure WithinTwiceTheInput (s : State) : Prop where
  cfg : s.cfg.wf
  alone : s.schedule = []
  busy : s.phase = .busy
  op : s.op = .encode
  window : s.hfill.toNat ≤ W
  inside : s.ipos.toNat ≤ s.inLen.toNat
  written : s.ocnt.toNat ≤ 2 * s.ipos.toNat
  room : 2 * s.inLen.toNat ≤ s.cfg.outCap

/-- Where such an ENCODE ends. -/
structure EncodedWithinTwice (inLen : Word) (t : State) : Prop where
  phase : t.phase = .done
  op : t.op = .encode
  outLen : t.outLen.toNat ≤ 2 * inLen.toNat
  ipos : t.ipos = inLen

namespace WithinTwiceTheInput

theorem step_eq {s : State} (h : WithinTwiceTheInput s) : step s = coreStep (clearReply s) := by
  rw [step_of_coreMoves (.inl (by rw [h.alone]; rfl)), atCoreStep_of_nil h.alone]

theorem replyCleared {s : State} (h : WithinTwiceTheInput s) : WithinTwiceTheInput (clearReply s) := { h with }

/-- A completed token of n input bytes and at most 2n output bytes keeps the bound. -/
theorem tokenDone {s t : State} (h : WithinTwiceTheInput s) {out pushed : List Byte} {n : Nat}
    (done : TokenDone out pushed n s t) (fits : s.ipos.toNat + n ≤ s.inLen.toNat) (short : out.length ≤ 2 * n) :
    WithinTwiceTheInput t := by
  obtain ⟨put, push, ipos, status, setting⟩ := done
  have written := h.written
  exact {
    cfg := setting.cfg ▸ h.cfg
    alone := setting.schedule.trans h.alone
    busy := status.phase.trans h.busy
    op := status.op.trans h.op
    window := by rw [push.hfill]; exact Nat.min_le_right _ _
    inside := by rw [ipos, setting.inLen]; exact fits
    written := by rw [put.ocnt, ipos]; omega
    room := by rw [setting.inLen, setting.cfg]; exact h.room }

/-- Before the end of the input the core emits a token, nearer to the end: the capacity never binds. -/
theorem advances {s : State} (h : WithinTwiceTheInput s) (inside : s.ipos.toNat < s.inLen.toNat) :
    ∃ t, step s = .next t ∧ WithinTwiceTheInput t ∧ s.ipos.toNat < t.ipos.toNat ∧ t.inLen = s.inLen := by
  have h' := h.replyCleared
  obtain ⟨out, n, pos, fits, short, emits⟩ := encodeStep_emits h'.busy h'.op inside h'.window
  have room : (clearReply s).ocnt.toNat + out.length ≤ (clearReply s).cfg.outCap := by
    have written := h'.written
    have cap := h'.room
    omega
  have done := tokenDone_token (pushed := (List.range n).map (lookahead (clearReply s))) h'.cfg room fits
    (fun _ => h'.window)
  refine ⟨_, ?_, h'.tokenDone done fits short, ?_, done.setting.inLen⟩
  · rw [h.step_eq, coreStep_eq_encodeStep h'.busy h'.op inside, emits room]
  · rw [done.ipos]
    exact Nat.lt_add_of_pos_right pos

theorem finishes {s : State} (h : WithinTwiceTheInput s) (atEnd : s.ipos = s.inLen) :
    ∃ t, step s = .next t ∧ EncodedWithinTwice s.inLen t := by
  refine ⟨finish (clearReply s), by rw [h.step_eq, coreStep_at_end h.replyCleared.busy atEnd], rfl, h.op, ?_, atEnd⟩
  exact atEnd ▸ h.written

/-- The core alone reaches DONE: by induction on how far IPOS is from the end of the input. -/
theorem runs {s : State} (h : WithinTwiceTheInput s) :
    ∃ k t, Sys2Proof.core.run k s = .next t ∧ EncodedWithinTwice s.inLen t := by
  induction hleft : s.inLen.toNat - s.ipos.toNat using Nat.strong_induction_on generalizing s with
  | _ left ih =>
    rcases Nat.lt_or_ge s.ipos.toNat s.inLen.toNat with inside | atEnd
    · obtain ⟨u, hstep, h', nearer, sameLen⟩ := h.advances inside
      obtain ⟨k, t, hrun, ended⟩ := ih _ (by rw [sameLen]; omega) h' rfl
      exact ⟨k + 1, t, (core_run_succ hstep k).trans hrun, sameLen ▸ ended⟩
    · obtain ⟨t, hstep, ended⟩ := h.finishes (BitVec.eq_of_toNat_eq (Nat.le_antisymm h.inside atEnd))
      exact ⟨1, t, core_run_succ hstep 0, ended⟩

end WithinTwiceTheInput

/-- START_ENCODE that runs has consumed and written nothing. -/
theorem withinTwiceTheInput_startOperation {s : State} (cfg : s.cfg.wf) (free : s.phase ≠ .busy)
    (alone : s.schedule = []) (fits : s.inLen.toNat ≤ s.cfg.inCap) (room : 2 * s.inLen.toNat ≤ s.cfg.outCap) :
    WithinTwiceTheInput (startOperation .encode s) := by
  rcases startOperation_cases .encode s with ⟨busy, -⟩ | ⟨-, excess, -⟩ | ⟨-, -, heq⟩
  · exact absurd busy free
  · exact absurd excess (Nat.not_lt_of_ge fits)
  · rw [heq]
    exact {
      cfg := cfg
      alone := alone
      busy := rfl
      op := rfl
      window := Nat.zero_le _
      inside := Nat.zero_le _
      written := Nat.zero_le _
      room := room }

/-- Settles O46: OCNT stays within twice IPOS along the run, so that no token lacks room. -/
theorem encodeFinishesWithinTwiceTheInput : Obligations.EncodeFinishesWithinTwiceTheInput := by
  intro s r cfg free alone fits room
  have input := (sameSetting_startOperation .encode s).inLen
  obtain ⟨k, t, hrun, phase, op, outLen, ipos⟩ :=
    (withinTwiceTheInput_startOperation cfg free alone fits room).runs
  rw [input] at outLen ipos
  exact ⟨_, k, t, rfl, hrun, phase, op, outLen, ipos⟩

end Sys2Proof.Machine

/-! # DECODE: the token that a step runs, its execution, and the decoding of an encoding (43_decode.md) -/

namespace Sys2Proof.Machine

/-! ## The step of DECODE (rules R160, R161) -/

/-- With no move left to the other agents the core moves (rule R200; log 2). -/
theorem coreMoves_of_alone {s : State} (alone : s.schedule = []) : coreMoves s := .inl (by rw [alone]; rfl)

/-- The bytes at IPOS, inside IN_LEN and no more than a token can have, are the first ones fetched. -/
theorem fetchBytes_eq_append {s : State} {bytes : List Byte} (short : bytes.length ≤ 4)
    (inside : s.ipos.toNat + bytes.length ≤ s.inLen.toNat)
    (held : ∀ (k : Nat) (h : k < bytes.length), inByte s (s.ipos.toNat + k) = bytes[k]) :
    ∃ rest, fetchBytes s = bytes ++ rest := by
  have count : min 4 (s.inLen.toNat - s.ipos.toNat) =
      bytes.length + (min 4 (s.inLen.toNat - s.ipos.toNat) - bytes.length) := by omega
  have own : (List.range bytes.length).map (fun k => inByte s (s.ipos.toNat + k)) = bytes :=
    List.ext_getElem (by simp) (fun k _ h => by simpa using held k h)
  rw [fetchBytes, count, List.range_add, List.map_append, own]
  exact ⟨_, rfl⟩

/-- A running DECODE runs the token whose bytes stand at IPOS. -/
theorem step_eq_exec_decoded {s : State} {i : Instr} {bytes : List Byte} (moves : coreMoves s)
    (busy : s.phase = .busy) (op : s.op = .decode) (token : decodeToken bytes = .ok (i, []))
    (inside : s.ipos.toNat + bytes.length ≤ s.inLen.toNat)
    (held : ∀ (k : Nat) (h : k < bytes.length), inByte s (s.ipos.toNat + k) = bytes[k]) :
    step s = exec i (atCoreStep s) := by
  have size : 1 ≤ bytes.length ∧ bytes.length ≤ 4 := by
    obtain ⟨v, -, rfl⟩ | ⟨hi, lo, len, -, rfl⟩ := decodeToken_eq_ok token <;> simp
  obtain ⟨rest, fetch⟩ := fetchBytes_eq_append (s := atCoreStep s) size.2 inside held
  obtain ⟨own, henc, happ⟩ := decodeToken_eq_ok_iff.mp token
  rw [List.append_nil] at happ
  have read : decodeToken (fetchBytes (atCoreStep s)) = .ok (i, rest) :=
    decodeToken_eq_ok_iff.mpr ⟨own, henc, happ ▸ fetch⟩
  rw [step_of_coreMoves moves, coreStep_eq_decodeStep (s := atCoreStep s) busy op
    (Nat.lt_of_lt_of_le (Nat.lt_add_of_pos_right size.1) inside)]
  simp only [decodeStep, read]

/-- Settles O6: the fetch reads the token's bytes, and a write at offset 0x00 runs the command. -/
theorem stepRunsTheDecodedInstruction : Obligations.StepRunsTheDecodedInstruction := by
  refine ⟨fun s i bytes => step_eq_exec_decoded, fun s i v moves scheduled command => ?_⟩
  have decoded : decodeCtrl v = i := by
    cases command
    rfl
  rw [step_writeReg scheduled, ← decoded]
  rfl

/-! ## The execution of LIT and MATCH (rules R162 to R167) -/

theorem exec_lit_of_decode {s : State} (busy : s.phase = .busy) (op : s.op = .decode) (v : Byte) :
    exec (.lit v) s = .next (litExec v s) := by
  simp [exec, execLit, whileBusy, busy, op]

theorem exec_matchTok_of_decode {s : State} (busy : s.phase = .busy) (op : s.op = .decode) (off : BitVec 16)
    (len : Byte) : exec (.matchTok off len) s = .next (matchExec off len s) := by
  simp [exec, execMatchTok, whileBusy, busy, op]

theorem litExec_of_truncated {s : State} (short : s.inLen.toNat < s.ipos.toNat + 2) (v : Byte) :
    litExec v s = abort .formatTruncLit s.ipos s :=
  if_pos short

theorem litExec_of_full {s : State} (whole : s.ipos.toNat + 2 ≤ s.inLen.toNat)
    (full : s.cfg.outCap < s.ocnt.toNat + 1) (v : Byte) : litExec v s = abort .capacityOut s.ipos s := by
  rw [litExec, if_neg (Nat.not_lt_of_le whole), if_pos ((outFull_iff 1 s).mpr full)]

theorem litExec_of_room {s : State} (whole : s.ipos.toNat + 2 ≤ s.inLen.toNat)
    (room : s.ocnt.toNat + 1 ≤ s.cfg.outCap) (v : Byte) :
    litExec v s = advance 2 (pushAll [v] (putAll [v] s)) := by
  rw [litExec, if_neg (Nat.not_lt_of_le whole), if_neg (by rw [outFull_iff]; omega)]
  rfl

/-- Settles O19, by the checks of LIT in their order. -/
theorem litIsExecuted : Obligations.LitIsExecuted := by
  intro v s cfg busy op
  rw [exec_lit_of_decode busy op]
  refine ⟨fun short => ?_, fun whole full => ?_, fun whole room => ?_⟩
  · rw [litExec_of_truncated short]
    exact ⟨_, rfl, abortedWith_abort .formatTruncLit s.ipos s⟩
  · rw [litExec_of_full whole full]
    exact ⟨_, rfl, abortedWith_abort .capacityOut s.ipos s⟩
  · rw [litExec_of_room whole room]
    exact ⟨_, rfl, tokenDone_token cfg room whole (by simp)⟩

/-- What a MATCH copies, by the window at its start: the last off bytes, cyclically (rules R165, R166). -/
def copiedBytes (s : State) (off n : Nat) : List Byte := (List.range n).map (fun k => backRead s (off - k % off))

@[simp] theorem copiedBytes_length (s : State) (off n : Nat) : (copiedBytes s off n).length = n := by
  simp [copiedBytes]

@[simp] theorem copiedBytes_getElem (s : State) (off n k : Nat) (h : k < (copiedBytes s off n).length) :
    (copiedBytes s off n)[k] = backRead s (off - k % off) := by
  simp [copiedBytes]

/-- The copied bytes by their window entries: (BPOS - off + (k mod off)) mod W (rule R165). -/
theorem copiedBytes_eq_histRead (s : State) {off : Nat} (pos : 1 ≤ off) (n : Nat) :
    copiedBytes s off n =
      (List.range n).map (fun k => histRead s (s.bpos - BitVec.ofNat 12 off + BitVec.ofNat 12 (k % off))) := by
  refine List.map_congr_left (fun k _ => ?_)
  have within : k % off < off := Nat.mod_lt k pos
  rw [← refByte_eq_backRead s off _ within, refByte, if_pos within]
  rfl

theorem matchExec_of_truncated {s : State} (short : s.inLen.toNat < s.ipos.toNat + 4) (off : BitVec 16)
    (len : Byte) : matchExec off len s = abort .formatTruncMatch s.ipos s :=
  if_pos short

section

variable {s : State} {off : BitVec 16} (whole : s.ipos.toNat + 4 ≤ s.inLen.toNat)
include whole

theorem matchExec_of_zero (zero : off.toNat = 0) (len : Byte) :
    matchExec off len s = abort .rangeOffZero s.ipos s := by
  rw [matchExec, if_neg (Nat.not_lt_of_le whole), if_pos zero]

theorem matchExec_of_beyond (beyond : W < off.toNat) (len : Byte) :
    matchExec off len s = abort .rangeOffBeyondWindow s.ipos s := by
  rw [matchExec, if_neg (Nat.not_lt_of_le whole), if_neg (Nat.ne_zero_of_lt beyond), if_pos beyond]

variable (pos : 1 ≤ off.toNat) (window : off.toNat ≤ W)
include pos window

theorem matchExec_of_unwritten (unwritten : s.hfill.toNat < off.toNat) (len : Byte) :
    matchExec off len s = abort .rangeOffUnwritten s.ipos s := by
  rw [matchExec, if_neg (Nat.not_lt_of_le whole), if_neg (Nat.ne_zero_of_lt pos), if_neg (Nat.not_lt_of_le window),
    if_pos unwritten]

variable (written : off.toNat ≤ s.hfill.toNat) {len : Byte}
include written

theorem matchExec_of_full (full : s.cfg.outCap < s.ocnt.toNat + len.toNat) :
    matchExec off len s = abort .capacityOut s.ipos s := by
  rw [matchExec, if_neg (Nat.not_lt_of_le whole), if_neg (Nat.ne_zero_of_lt pos), if_neg (Nat.not_lt_of_le window),
    if_neg (Nat.not_lt_of_le written), if_pos ((outFull_iff _ s).mpr full)]

theorem matchExec_of_room (room : s.ocnt.toNat + len.toNat ≤ s.cfg.outCap) :
    matchExec off len s = advance 4 (pushAll (copiedBytes s off.toNat len.toNat)
      (putAll (copiedBytes s off.toNat len.toNat) s)) := by
  rw [matchExec, if_neg (Nat.not_lt_of_le whole), if_neg (Nat.ne_zero_of_lt pos), if_neg (Nat.not_lt_of_le window),
    if_neg (Nat.not_lt_of_le written), if_neg (by rw [outFull_iff]; omega), matchCopy_eq _ pos window]
  rfl

/-- A MATCH that passes its checks writes the copied bytes. -/
theorem put_matchExec (cfg : s.cfg.wf) (room : s.ocnt.toNat + len.toNat ≤ s.cfg.outCap) :
    Put (copiedBytes s off.toNat len.toNat) s (matchExec off len s) := by
  rw [matchExec_of_room whole pos window written room]
  exact put_token (by rw [copiedBytes_length]; exact Nat.lt_of_le_of_lt room cfg.2.2.2) _ 4

end

/-- Settles O20, by the checks of MATCH in their order. -/
theorem matchIsExecuted : Obligations.MatchIsExecuted := by
  intro off len s cfg busy op fill
  rw [exec_matchTok_of_decode busy op]
  refine ⟨fun short => ?_, fun whole zero => ?_, fun whole beyond => ?_, fun whole pos window unwritten => ?_,
    fun whole pos window written full => ?_, fun whole pos window written room => ?_⟩
  · rw [matchExec_of_truncated short]
    exact ⟨_, rfl, abortedWith_abort .formatTruncMatch s.ipos s⟩
  · rw [matchExec_of_zero whole zero]
    exact ⟨_, rfl, abortedWith_abort .rangeOffZero s.ipos s⟩
  · rw [matchExec_of_beyond whole beyond]
    exact ⟨_, rfl, abortedWith_abort .rangeOffBeyondWindow s.ipos s⟩
  · rw [matchExec_of_unwritten whole pos window unwritten]
    exact ⟨_, rfl, abortedWith_abort .rangeOffUnwritten s.ipos s⟩
  · rw [matchExec_of_full whole pos window written full]
    exact ⟨_, rfl, abortedWith_abort .capacityOut s.ipos s⟩
  · rw [matchExec_of_room whole pos window written room]
    exact ⟨_, _, rfl, tokenDone_token cfg (by simpa using room) whole (fun _ => fill),
      copiedBytes_eq_histRead s pos len.toNat⟩

/-- Settles O22: a copy of no bytes leaves everything but IPOS. -/
theorem everyMatchLengthIsAccepted : Obligations.EveryMatchLengthIsAccepted := by
  intro off len s cfg busy op whole pos window written room
  have grown := (put_matchExec whole pos window written cfg room).ocnt
  rw [copiedBytes_length] at grown
  refine ⟨_, exec_matchTok_of_decode busy op off len, ?_, grown, ?_⟩ <;>
    rw [matchExec_of_room whole pos window written room]
  · simpa using busy
  · rintro rfl
    rfl

/-! ## The copy in lock step (rule R166) -/

/-- In DECODE the fill never exceeds the output produced, nor the window. -/
theorem Lockstep.hfill_decode {s : State} (lock : Lockstep s) (op : s.op = .decode) :
    s.hfill.toNat = min s.ocnt.toNat W := by
  rw [lock.hfill, pushCount_decode op]

/-- In DECODE the window byte that a copy reads is an output byte, one of the last off. -/
theorem Lockstep.copied_decode {s : State} (lock : Lockstep s) (op : s.op = .decode) {off : Nat} (pos : 1 ≤ off)
    (written : off ≤ s.hfill.toNat) (k : Nat) :
    some (backRead s (off - k % off)) = outByte s (s.ocnt.toNat - off + k % off) := by
  have fill := lock.hfill_decode op
  have within : k % off < off := Nat.mod_lt k pos
  have earlier : s.ocnt.toNat - (off - k % off) = s.ocnt.toNat - off + k % off := by omega
  rw [lock.held _ (by omega) (by omega), pushedByte_decode op, pushCount_decode op, earlier]

/-- Settles O21: the copied bytes are window bytes, and in lock step these are output bytes. -/
theorem overlappingCopyRepeatsItself : Obligations.OverlappingCopyRepeatsItself := by
  intro off len s t cfg busy op lock whole pos written room answers k hk
  have fill := lock.hfill_decode op
  have source := lock.copied_decode op pos written k
  have put := (put_matchExec whole pos (by omega) written cfg room).written k (by simpa using hk)
  rw [copiedBytes_getElem, source] at put
  rw [exec_matchTok_of_decode busy op] at answers
  cases answers
  exact ⟨source ▸ rfl, put⟩

/-! ## Progress (rules R168, R244) -/

/-- Short of IN_LEN the core raises, or stays BUSY and consumes what its operation's tokens can consume. -/
theorem CoreEffect.advances {s t : State} (e : CoreEffect s t) (inside : s.ipos.toNat < s.inLen.toNat) :
    t.phase = .error ∨
    (t.phase = .busy ∧ t.ipos.toNat ≤ s.inLen.toNat ∧ t.inLen = s.inLen ∧
      (s.op = .encode → s.ipos.toNat + 1 ≤ t.ipos.toNat ∧ t.ipos.toNat ≤ s.ipos.toNat + 18) ∧
      (s.op = .decode → t.ipos.toNat = s.ipos.toNat + 2 ∨ t.ipos.toNat = s.ipos.toNat + 4)) := by
  have setting := sameSetting_of_coreEffect e
  cases e with
  | finished _ atEnd _ => exact absurd (congrArg BitVec.toNat atEnd) (Nat.ne_of_lt inside)
  | aborted _ _ _ _ _ heq => exact .inl (heq ▸ rfl)
  | emitted out n busy _ op used cap _ _ heq =>
    obtain ⟨most, left⟩ := laLen_le s
    have ipos : t.ipos.toNat = s.ipos.toNat + n := by
      rw [heq, advance_ipos_toNat (by simp; omega), pushAll_ipos, putAll_ipos]
    refine .inr ⟨by simp [heq, busy], by omega, setting.inLen, fun _ => ⟨by omega, by omega⟩, fun decode => ?_⟩
    cases op.symm.trans decode
  | executed out n busy within op used _ heq =>
    have ipos : t.ipos.toNat = s.ipos.toNat + n := by
      rw [heq, advance_ipos_toNat (by simpa using within), pushAll_ipos, putAll_ipos]
    refine .inr ⟨by simp [heq, busy], by omega, setting.inLen, fun encode => ?_, fun _ => by omega⟩
    cases op.symm.trans encode

/-- Settles O26, by cases on what the core's step can do. -/
theorem everyTokenStepAdvances : Obligations.EveryTokenStepAdvances := by
  intro s t _ moves _ inside hstep
  rw [step_of_coreMoves moves] at hstep
  exact (coreStep_effect hstep).advances inside

end Sys2Proof.Machine

/-! # The round trip: an ENCODE and a DECODE of its output, token by token (43_decode.md section 4) -/

namespace Sys2Proof.Machine

/-! ## The same bytes on both sides (rules R121, R166) -/

/-- Along a candidate's run the lookahead repeats the last off input bytes cyclically, as a copy repeats the last off
output bytes. -/
theorem Lockstep.lookahead_eq_cyclic {s : State} (lock : Lockstep s) (op : s.op = .encode) {off : Nat} (pos : 1 ≤ off)
    (candidate : off ≤ s.hfill.toNat) {k : Nat} (inside : k < runLength s off) :
    lookahead s k = inByte s (s.ipos.toNat - off + k % off) := by
  induction k using Nat.strong_induction_on with
  | _ k ih =>
    rw [lookahead_eq_refByte_of_lt_runLength inside]
    rcases Nat.lt_or_ge k off with window | overlap
    · rw [lock.refByte_encode op candidate, Nat.mod_eq_of_lt window]
    · rw [refByte, if_neg (Nat.not_lt_of_le overlap), ih (k - off) (by omega) (by omega),
        ← Nat.mod_eq_sub_mod overlap]

/-- The next n input bytes: what a token of ENCODE consumes and pushes (rule R143). -/
def nextBytes (s : State) (n : Nat) : List Byte := (List.range n).map (lookahead s)

@[simp] theorem nextBytes_length (s : State) (n : Nat) : (nextBytes s n).length = n := by simp [nextBytes]

@[simp] theorem nextBytes_getElem (s : State) (n k : Nat) (h : k < (nextBytes s n).length) :
    (nextBytes s n)[k] = inByte s (s.ipos.toNat + k) := by
  simp [nextBytes, lookahead]

/-- A DECODE that runs alone and has turned exactly what the ENCODE has written back into what the ENCODE has consumed,
with room for the whole input. -/
structure Mirrors (s d : State) : Prop where
  cfg : d.cfg.wf
  alone : d.schedule = []
  busy : d.phase = .busy
  op : d.op = .decode
  lock : Lockstep d
  room : s.inLen.toNat ≤ d.cfg.outCap
  ipos : d.ipos.toNat = s.ocnt.toNat
  ocnt : d.ocnt.toNat = s.ipos.toNat
  output : ∀ a < s.ipos.toNat, outByte d a = some (inByte s a)

/-- The two windows are filled alike. -/
theorem Mirrors.hfill {s d : State} (m : Mirrors s d) (lock : Lockstep s) (op : s.op = .encode) :
    d.hfill.toNat = s.hfill.toNat := by
  rw [m.lock.hfill_decode m.op, m.ocnt, lock.hfill_encode op]

/-- A copy at the offset of a run of the ENCODE gives the bytes of the run. -/
theorem Mirrors.copiedBytes_eq {s d : State} (m : Mirrors s d) (lock : Lockstep s) (op : s.op = .encode) {off n : Nat}
    (pos : 1 ≤ off) (candidate : off ≤ s.hfill.toNat) (run : n ≤ runLength s off) :
    copiedBytes d off n = nextBytes s n := by
  have fill := lock.hfill_encode op
  refine List.map_congr_left (fun k hk => Option.some.inj ?_)
  have inside : k < runLength s off := Nat.lt_of_lt_of_le (List.mem_range.mp hk) run
  have within : k % off < off := Nat.mod_lt k pos
  rw [m.lock.copied_decode m.op pos (by rw [m.hfill lock op]; exact candidate) k, m.ocnt, m.output _ (by omega),
    lock.lookahead_eq_cyclic op pos candidate inside]

/-! ## One token on both sides -/

/-- The token i, encoded in the bytes own, that ENCODE emits for the next n input bytes, and that a mirroring DECODE
turns back into these. -/
structure ReversibleToken (s : State) (i : Instr) (own : List Byte) (n : Nat) : Prop where
  token : decodeToken own = .ok (i, [])
  used : 1 ≤ n
  inside : s.ipos.toNat + n ≤ s.inLen.toNat
  short : own.length ≤ 2 * n
  emits : s.ocnt.toNat + own.length ≤ s.cfg.outCap →
    encodeStep s = .next (advance n (pushAll (nextBytes s n) (putAll own s)))
  executes : ∀ d, Mirrors s d → d.ipos.toNat + own.length ≤ d.inLen.toNat →
    exec i d = .next (advance own.length (pushAll (nextBytes s n) (putAll (nextBytes s n) d)))

section

variable {s : State} (busy : s.phase = .busy) (op : s.op = .encode) (inside : s.ipos.toNat < s.inLen.toNat)
include busy op inside

/-- LIT of the next byte, where no run is long enough. -/
theorem reversibleToken_of_short (short : (findMatch s).2 < 3) :
    ReversibleToken s (.lit (lookahead s 0)) [0x00#8, lookahead s 0] 1 where
  token := decodeToken_lit _ []
  used := Nat.le_refl 1
  inside := inside
  short := Nat.le_refl 2
  emits := by
    intro room
    rw [encodeStep, selectToken_of_short short, exec_lit_of_encode busy op, emitLit_of_room room]
    rfl
  executes := by
    intro d m whole
    rw [exec_lit_of_decode m.busy m.op, litExec_of_room whole (by rw [m.ocnt]; exact Nat.le_trans inside m.room)]
    rfl

/-- MATCH of the nearest longest run: its offset lies in both windows, and its copy is the run. -/
theorem reversibleToken_of_long (lock : Lockstep s) (long : 3 ≤ (findMatch s).2) :
    ∃ i own n, ReversibleToken s i own n := by
  have fill := lock.hfill_encode op
  obtain ⟨off, len, hoff, hlen, chosen⟩ := selectToken_of_long (s := s) (by omega) long
  obtain ⟨pos, candidate, run, -⟩ := findMatch_found (s := s) (by omega)
  rw [← hoff] at pos candidate run
  rw [← hlen] at run
  have fits : (findMatch s).2 ≤ s.inLen.toNat - s.ipos.toNat := (scan_le s _).trans (laLen_le s).2
  have within : s.ipos.toNat + len.toNat ≤ s.inLen.toNat := by omega
  refine ⟨.matchTok off len, [0x01#8, offsetHigh off, offsetLow off, len], len.toNat, ?_, by omega, within, ?_,
    fun room => ?_, fun d m whole => ?_⟩
  · rw [decodeToken_matchTok, assembleOffset_offset]
  · simp only [List.length_cons, List.length_nil]
    omega
  · rw [encodeStep, chosen, exec_matchTok_of_encode busy op, emitMatch_of_room room]
    rfl
  · have written : off.toNat ≤ d.hfill.toNat := by rw [m.hfill lock op]; exact candidate
    have room : d.ocnt.toNat + len.toNat ≤ d.cfg.outCap := by rw [m.ocnt]; exact within.trans m.room
    rw [exec_matchTok_of_decode m.busy m.op, matchExec_of_room whole pos (by omega) written room,
      m.copiedBytes_eq lock op pos candidate (Nat.le_of_eq run.symm)]
    rfl

/-- Every token that ENCODE emits can be turned back. -/
theorem exists_reversibleToken (lock : Lockstep s) : ∃ i own n, ReversibleToken s i own n := by
  rcases Nat.lt_or_ge (findMatch s).2 3 with short | long
  · exact ⟨_, _, _, reversibleToken_of_short busy op inside short⟩
  · exact reversibleToken_of_long busy op inside lock long

end

theorem Mirrors.replyCleared {s d : State} (m : Mirrors s d) : Mirrors s (clearReply d) :=
  { m with lock := { m.lock with } }

/-- A mirroring DECODE whose IN holds the token at IPOS runs it. -/
theorem ReversibleToken.step_decode {s d : State} {i : Instr} {own : List Byte} {n : Nat}
    (r : ReversibleToken s i own n) (m : Mirrors s d) (whole : d.ipos.toNat + own.length ≤ d.inLen.toNat)
    (held : ∀ (k : Nat) (h : k < own.length), inByte d (d.ipos.toNat + k) = own[k]) :
    step d = .next (advance own.length (pushAll (nextBytes s n) (putAll (nextBytes s n) (clearReply d)))) := by
  rw [step_eq_exec_decoded (coreMoves_of_alone m.alone) m.busy m.op r.token whole held, atCoreStep_of_nil m.alone]
  exact r.executes _ m.replyCleared whole

/-- The token done on both sides, the DECODE mirrors the ENCODE again. -/
theorem Mirrors.tokenDone {s u d f : State} (m : Mirrors s d) {own : List Byte} {n : Nat}
    (emitted : TokenDone own (nextBytes s n) n s u)
    (executed : TokenDone (nextBytes s n) (nextBytes s n) own.length d f) (lock : Lockstep f) : Mirrors u f where
  cfg := executed.setting.cfg ▸ m.cfg
  alone := executed.setting.schedule.trans m.alone
  busy := executed.status.phase.trans m.busy
  op := executed.status.op.trans m.op
  lock := lock
  room := by rw [emitted.setting.inLen, executed.setting.cfg]; exact m.room
  ipos := by rw [executed.ipos, emitted.put.ocnt, m.ipos]
  ocnt := by rw [executed.put.ocnt, emitted.ipos, m.ocnt, nextBytes_length]
  output := by
    intro a ha
    rw [emitted.ipos] at ha
    rw [emitted.setting.inBytes]
    rcases Nat.lt_or_ge a s.ipos.toNat with before | now
    · rw [executed.put.kept a (.inl (by rw [m.ocnt]; exact before)), m.output a before]
    · obtain ⟨k, rfl⟩ := Nat.exists_eq_add_of_le now
      have written := executed.put.written k (by rw [nextBytes_length]; omega)
      rw [nextBytes_getElem, m.ocnt] at written
      exact written

/-- After the token's step on either side the DECODE mirrors the ENCODE again, with the same input as before. -/
theorem ReversibleToken.step_mirrors {s u d : State} {i : Instr} {own : List Byte} {n : Nat}
    (r : ReversibleToken s i own n) (emitted : TokenDone own (nextBytes s n) n s u) (m : Mirrors s d)
    (whole : d.ipos.toNat + own.length ≤ d.inLen.toNat)
    (held : ∀ (k : Nat) (h : k < own.length), inByte d (d.ipos.toNat + k) = own[k]) :
    ∃ f, step d = .next f ∧ Mirrors u f ∧ SameSetting (clearReply d) f := by
  have m' := m.replyCleared
  have room : (clearReply d).ocnt.toNat + (nextBytes s n).length ≤ (clearReply d).cfg.outCap := by
    rw [m'.ocnt, nextBytes_length]
    exact r.inside.trans m'.room
  have window : (clearReply d).hfill.toNat ≤ W := by
    rw [m'.lock.hfill_decode m'.op]
    exact Nat.min_le_right _ _
  have executed := tokenDone_token (pushed := nextBytes s n) m'.cfg room whole (fun _ => window)
  have lock := lockstep_executed m'.lock m'.op (n := own.length) (Nat.lt_of_le_of_lt room m'.cfg.2.2.2) rfl
  exact ⟨_, r.step_decode m whole held, m'.tokenDone emitted executed lock, executed.setting⟩

/-! ## The runs on both sides -/

/-- The machine's input is the output that the other machine has published. -/
structure HoldsOutput (e d : State) : Prop where
  inLen : d.inLen = e.outLen
  bytes : ∀ a < e.outLen.toNat, some (inByte d a) = outByte e a

/-- A DECODE has ended with the input of s as its result. -/
structure ReturnsInput (s f : State) : Prop where
  phase : f.phase = .done
  outLen : f.outLen = s.inLen
  output : ∀ a < s.inLen.toNat, outByte f a = some (inByte s a)

/-- The ENCODE that stands at s ends in e, and every DECODE that mirrors it at s and reads e's output returns the
input. -/
structure DecodesBack (s e : State) : Prop where
  phase : e.phase = .done
  longer : s.ocnt.toNat ≤ e.outLen.toNat
  kept : ∀ a < s.ocnt.toNat, outByte e a = outByte s a
  decodes : ∀ d, Mirrors s d → HoldsOutput e d → ∃ n f, Sys2Proof.core.run n d = .next f ∧ ReturnsInput s f

/-- The host's last answer plays no part. -/
theorem DecodesBack.of_clearReply {s e : State} (back : DecodesBack (clearReply s) e) : DecodesBack s e where
  phase := back.phase
  longer := back.longer
  kept := back.kept
  decodes := by
    intro d m holds
    obtain ⟨n, f, hrun, returns⟩ := back.decodes d { m with } holds
    exact ⟨n, f, hrun, { returns with }⟩

/-- At the end of the input both sides finish. -/
theorem decodesBack_finish {s : State} (atEnd : s.ipos = s.inLen) : DecodesBack s (finish s) where
  phase := rfl
  longer := Nat.le_refl _
  kept := fun _ _ => rfl
  decodes := by
    intro d m holds
    have decodeAtEnd : d.ipos = d.inLen := by
      rw [holds.inLen]
      exact BitVec.eq_of_toNat_eq m.ipos
    have hstep : step d = .next (finish (clearReply d)) := by
      rw [step_of_coreMoves (coreMoves_of_alone m.alone), atCoreStep_of_nil m.alone]
      exact coreStep_at_end m.replyCleared.busy decodeAtEnd
    have produced := m.ocnt
    have output := m.output
    rw [atEnd] at produced output
    exact ⟨1, _, core_run_succ hstep 0, rfl, BitVec.eq_of_toNat_eq produced, output⟩

/-- A token goes before a DECODE that returns the input: the later output does not touch the token's bytes, so that the
DECODE finds them and mirrors the ENCODE after them. -/
theorem ReversibleToken.decodesBack {s u e : State} {i : Instr} {own : List Byte} {n : Nat}
    (r : ReversibleToken s i own n) (emitted : TokenDone own (nextBytes s n) n s u) (back : DecodesBack u e) :
    DecodesBack s e := by
  have written := emitted.put.ocnt
  have longer := back.longer
  refine ⟨back.phase, by omega, fun a ha => ?_, fun d m holds => ?_⟩
  · rw [back.kept a (by omega), emitted.put.kept a (.inl ha)]
  · have whole : d.ipos.toNat + own.length ≤ d.inLen.toNat := by rw [m.ipos, holds.inLen]; omega
    have held : ∀ (k : Nat) (h : k < own.length), inByte d (d.ipos.toNat + k) = own[k] := by
      intro k hk
      refine Option.some.inj ?_
      rw [m.ipos, holds.bytes _ (by omega), back.kept _ (by omega), emitted.put.written k hk]
    obtain ⟨g, hstep, mirrors, setting⟩ := r.step_mirrors emitted m whole held
    have holds' : HoldsOutput e g :=
      ⟨setting.inLen.trans holds.inLen, fun a ha => by rw [setting.inBytes]; exact holds.bytes a ha⟩
    obtain ⟨j, f, hrun, returns⟩ := back.decodes g mirrors holds'
    refine ⟨j + 1, f, (core_run_succ hstep j).trans hrun, returns.phase, ?_, fun a ha => ?_⟩
    · rw [returns.outLen, emitted.setting.inLen]
    · rw [returns.output a (by rw [emitted.setting.inLen]; exact ha), emitted.setting.inBytes]

/-- Before the end of the input the ENCODE emits a token, and what can be decoded after it can be decoded before it. -/
theorem WithinTwiceTheInput.advances_reversibly {s : State} (h : WithinTwiceTheInput s) (lock : Lockstep s)
    (inside : s.ipos.toNat < s.inLen.toNat) :
    ∃ u, step s = .next u ∧ WithinTwiceTheInput u ∧ Lockstep u ∧
      u.inLen.toNat - u.ipos.toNat < s.inLen.toNat - s.ipos.toNat ∧ ∀ e, DecodesBack u e → DecodesBack s e := by
  have h' := h.replyCleared
  have lock' : Lockstep (clearReply s) := { lock with }
  obtain ⟨i, own, n, r⟩ := exists_reversibleToken h'.busy h'.op inside lock'
  have used := r.used
  have fits := r.inside
  have short := r.short
  have room : (clearReply s).ocnt.toNat + own.length ≤ (clearReply s).cfg.outCap := by
    have written := h'.written
    have cap := h'.room
    omega
  have emitted := tokenDone_token (pushed := nextBytes (clearReply s) n) h'.cfg room fits (fun _ => h'.window)
  refine ⟨_, ?_, h'.tokenDone emitted fits short, lockstep_emitted lock' h'.op fits rfl, ?_,
    fun e back => (r.decodesBack emitted back).of_clearReply⟩
  · rw [h.step_eq, coreStep_eq_encodeStep h'.busy h'.op inside, r.emits room]
  · rw [emitted.ipos, emitted.setting.inLen, clearReply_ipos, clearReply_inLen]
    omega

/-- The core alone runs the ENCODE to an output that decodes back: by induction on how far IPOS is from the end of the
input. -/
theorem WithinTwiceTheInput.runs_reversibly {s : State} (h : WithinTwiceTheInput s) (lock : Lockstep s) :
    ∃ k e, Sys2Proof.core.run k s = .next e ∧ DecodesBack s e := by
  induction hleft : s.inLen.toNat - s.ipos.toNat using Nat.strong_induction_on generalizing s with
  | _ left ih =>
    rcases Nat.lt_or_ge s.ipos.toNat s.inLen.toNat with inside | past
    · obtain ⟨u, hstep, h', lock', nearer, before⟩ := h.advances_reversibly lock inside
      obtain ⟨k, e, hrun, back⟩ := ih _ (by omega) h' lock' rfl
      exact ⟨k + 1, e, (core_run_succ hstep k).trans hrun, before e back⟩
    · have atEnd : s.ipos = s.inLen := BitVec.eq_of_toNat_eq (Nat.le_antisymm h.inside past)
      have hstep : step s = .next (finish (clearReply s)) := by
        rw [h.step_eq, coreStep_at_end h.replyCleared.busy atEnd]
      exact ⟨1, _, core_run_succ hstep 0, (decodesBack_finish (s := clearReply s) atEnd).of_clearReply⟩

/-! ## The two STARTs -/

theorem startOperation_of_free {s : State} (free : s.phase ≠ .busy) (fits : s.inLen.toNat ≤ s.cfg.inCap) (op : Op) :
    startOperation op s = { clearWindow s with
      op := op, ipos := 0, ocnt := 0, outLen := 0, ecode := 0, errPos := 0, phase := .busy } := by
  rcases startOperation_cases op s with ⟨busy, -⟩ | ⟨-, excess, -⟩ | ⟨-, -, heq⟩
  · exact absurd busy free
  · exact absurd excess (Nat.not_lt_of_ge fits)
  · exact heq

/-- A DECODE that has just started mirrors an ENCODE that has just started. -/
theorem mirrors_startOperation {s d : State} (cfg : d.cfg.wf) (free : d.phase ≠ .busy) (alone : d.schedule = [])
    (fits : d.inLen.toNat ≤ d.cfg.inCap) (room : s.inLen.toNat ≤ d.cfg.outCap) (consumed : s.ipos = 0)
    (written : s.ocnt = 0) : Mirrors s (startOperation .decode d) := by
  rw [startOperation_of_free free fits]
  exact {
    cfg := cfg
    alone := alone
    busy := rfl
    op := rfl
    lock := lockstep_of_clear rfl rfl rfl rfl
    room := room
    ipos := by rw [written]
    ocnt := by rw [consumed]
    output := by simp [consumed] }

/-- Settles O47: the two runs mirror each other from START on, token by token. -/
theorem decodingAnEncodingReturnsTheInput : Obligations.DecodingAnEncodingReturnsTheInput := by
  intro s r q cfg free alone fits room
  have started := startOperation_of_free free fits .encode
  have setting := sameSetting_startOperation .encode s
  have h := withinTwiceTheInput_startOperation cfg free alone fits room
  have lock := lockstep_startOperation (fun busy => absurd busy free) .encode h.busy
  obtain ⟨k, e, hrun, back⟩ := h.runs_reversibly lock
  refine ⟨_, k, e, rfl, hrun, back.phase, fun d dcfg dfree dalone dlen dfits droom bytes => ?_⟩
  have dsetting := sameSetting_startOperation .decode d
  have mirrors : Mirrors (startOperation .encode s) (startOperation .decode d) :=
    mirrors_startOperation dcfg dfree dalone dfits (setting.inLen ▸ droom) (by rw [started]) (by rw [started])
  have holds : HoldsOutput e (startOperation .decode d) :=
    ⟨dsetting.inLen.trans dlen, fun a ha => by rw [dsetting.inBytes]; exact bytes a ha⟩
  obtain ⟨n, f, hdecode, returns⟩ := back.decodes _ mirrors holds
  refine ⟨_, n, f, rfl, hdecode, returns.phase, returns.outLen.trans setting.inLen, fun a ha => ?_⟩
  rw [returns.output a (setting.inLen.symm ▸ ha), setting.inBytes]

end Sys2Proof.Machine

/-! # Control: the commands, the core's step, the lifecycle of STATE, and the host's accesses (44_control.md) -/

namespace Sys2Proof.Machine

/-! ## When the core has a step (rules R203, R204) -/

theorem coreStep_of_free {s : State} (free : s.phase ≠ .busy) : coreStep s = .fault .noStep :=
  if_pos free

/-- While BUSY every instruction answers. -/
theorem exec_answers {s : State} (busy : s.phase = .busy) (i : Instr) : ∃ t, exec i s = .next t := by
  cases i with
  | lit v => exact ⟨_, if_pos busy⟩
  | matchTok off len => exact ⟨_, if_pos busy⟩
  | startEncode r => exact ⟨_, rfl⟩
  | startDecode r => exact ⟨_, rfl⟩
  | ctrlNop r => exact ⟨_, rfl⟩

/-- Only an empty stream is at its end. -/
theorem decodeToken_cons_ne_endOfStream (disc : Byte) (tail : List Byte) :
    decodeToken (disc :: tail) ≠ .error .endOfStream := by
  simp only [decodeToken]
  repeat' split
  all_goals simp

/-- Whatever prevents a token with a first byte from being read is an error of rule R212. -/
theorem fetchError_of_cons {disc : Byte} {tail : List Byte} {e : DecodeError}
    (unread : decodeToken (disc :: tail) = .error e) : ∃ code, fetchError e = some code := by
  cases e with
  | endOfStream => exact absurd unread (decodeToken_cons_ne_endOfStream disc tail)
  | badDisc => exact ⟨_, rfl⟩
  | truncLit => exact ⟨_, rfl⟩
  | truncMatch => exact ⟨_, rfl⟩

/-- DecodeToken answers inside IN_LEN: it runs the token that it reads, or takes its FormatError. -/
theorem decodeStep_answers {s : State} (busy : s.phase = .busy) (inside : s.ipos.toNat < s.inLen.toNat) :
    ∃ t, decodeStep s = .next t := by
  obtain ⟨tail, hfetch, -⟩ := fetchBytes_eq_cons inside
  cases read : decodeToken (fetchBytes s) with
  | ok token =>
    simp only [decodeStep, read]
    exact exec_answers busy token.1
  | error e =>
    obtain ⟨code, raised⟩ := fetchError_of_cons (hfetch ▸ read)
    exact ⟨_, decodeStep_of_error read raised⟩

/-- While BUSY the core finishes at IN_LEN and runs a token before it. -/
theorem coreStep_answers {s : State} (busy : s.phase = .busy) (within : s.ipos.toNat ≤ s.inLen.toNat) :
    ∃ t, coreStep s = .next t := by
  rcases Nat.eq_or_lt_of_le within with atEnd | inside
  · exact ⟨_, coreStep_at_end busy (BitVec.eq_of_toNat_eq atEnd)⟩
  · cases op : s.op with
    | encode =>
      rw [coreStep_eq_encodeStep busy op inside]
      exact exec_answers busy _
    | decode =>
      rw [coreStep_eq_decodeStep busy op inside]
      exact decodeStep_answers busy inside

/-- Settles O11: outside BUSY the core stops at once; while BUSY it finishes or runs a token. -/
theorem coreStepsOnlyWhileBusy : Obligations.CoreStepsOnlyWhileBusy := by
  intro s moves
  rw [step_of_coreMoves moves]
  exact ⟨fun free => coreStep_of_free (s := atCoreStep s) free,
    fun busy within => coreStep_answers (s := atCoreStep s) busy within⟩

/-- Settles O10: the core's step is Finish, and the invariant gives the ECODE and ERR_POS of a running operation. -/
theorem finishPublishesTheResult : Obligations.FinishPublishesTheResult := by
  intro s inv moves busy atEnd
  have noError : s.phase ≠ .error := by simp [busy]
  have ecode : s.ecode = 0 := by
    by_contra raised
    exact noError (inv.ecodeError.mp raised)
  refine ⟨finish (atCoreStep s), ?_, rfl, rfl, ecode, inv.errPosError noError, rfl, { SameDatapath.refl s with },
    { SameSetting.refl (atCoreStep s) with }⟩
  rw [step_of_coreMoves moves]
  exact coreStep_at_end (s := atCoreStep s) busy atEnd

/-! ## The commands (rules R191 to R194) -/

theorem startOperation_of_busy {s : State} (busy : s.phase = .busy) (op : Op) : startOperation op s = s :=
  if_pos busy

theorem startOperation_of_excess {s : State} (free : s.phase ≠ .busy) (excess : s.cfg.inCap < s.inLen.toNat)
    (op : Op) : startOperation op s = abort .capacityIn 0 { s with op := op } := by
  rw [startOperation, if_neg free, if_pos excess]

/-- Settles O29, by the three cases of START. -/
theorem startBeginsAnOperation : Obligations.StartBeginsAnOperation := by
  intro i op r s command
  have started : exec i s = .next (startOperation op s) := by
    rcases command with ⟨rfl, rfl⟩ | ⟨rfl, rfl⟩ <;> rfl
  have setting := sameSetting_startOperation op s
  rw [started]
  refine ⟨fun busy => ?_, fun free excess => ?_, fun free fits => ?_⟩
  · rw [startOperation_of_busy busy]
  · rw [startOperation_of_excess free excess] at setting ⊢
    exact ⟨_, rfl, rfl, rfl, rfl, rfl, rfl, { SameDatapath.refl s with }, setting⟩
  · rw [startOperation_of_free free fits] at setting ⊢
    exact ⟨_, rfl, rfl, fun _ => rfl, rfl, rfl, rfl, rfl, rfl, rfl, rfl, rfl, fun _ => rfl, setting⟩

/-- A CTRL value with the START bit starts the operation that bit 1 names (rules R33, R81). -/
theorem exec_decodeCtrl_of_start {v : Word} (start : v.getLsbD 0 = true) (s : State) :
    exec (decodeCtrl v) s = .next (startOperation (if v.getLsbD 1 then .decode else .encode) s) := by
  rw [decodeCtrl, if_pos start]
  cases v.getLsbD 1 <;> rfl

/-- A write of CTRL runs the command of the written value. -/
theorem step_writeCtrl {s : State} {v : Word} {ms : List Move} (h : s.schedule = .host (.writeReg 0x00 4 v) :: ms) :
    step s = exec (decodeCtrl v) (clearReply (withMoves ms s)) :=
  step_writeReg h

/-- Settles O30: a value without the START bit decodes to CTRL_NOP. -/
theorem ctrlNopHasNoEffect : Obligations.CtrlNopHasNoEffect := by
  refine ⟨fun _ _ => rfl, fun s v ms clear scheduled => ?_⟩
  rw [step_writeCtrl scheduled, exec_decodeCtrl_of_start_clear clear]

/-! ## The lifecycle of STATE (rule R199) -/

/-- The core moves STATE by Finish and by the abort alone: a completed token leaves the operation running. -/
theorem CoreEffect.phase_moves {s t : State} (e : CoreEffect s t) (moved : t.phase ≠ s.phase) :
    s.ipos = s.inLen ∧ t.phase = .done ∨ s.ipos ≠ s.inLen ∧ t.phase = .error ∧ t.ecode ≠ 0 := by
  cases e with
  | finished _ atEnd heq => exact .inl ⟨atEnd, heq ▸ rfl⟩
  | aborted code _ inside _ _ heq =>
    have notEnd : s.ipos ≠ s.inLen := fun h => Nat.ne_of_lt inside (congrArg BitVec.toNat h)
    subst heq
    exact .inr ⟨notEnd, rfl, code.code_ne_zero⟩
  | emitted _ _ _ _ _ _ _ _ _ heq => simp [heq] at moved
  | executed _ _ _ _ _ _ _ heq => simp [heq] at moved

/-- START moves STATE outside BUSY alone, and whether the input fits says where. -/
theorem startOperation_phase_moves {s : State} {op : Op} (moved : (startOperation op s).phase ≠ s.phase) :
    s.phase ≠ .busy ∧ (s.inLen.toNat ≤ s.cfg.inCap → (startOperation op s).phase = .busy) ∧
      (s.cfg.inCap < s.inLen.toNat → (startOperation op s).phase = .error) := by
  have free : s.phase ≠ .busy := fun busy => moved (by rw [startOperation_of_busy busy])
  refine ⟨free, fun fits => ?_, fun excess => ?_⟩
  · rw [startOperation_of_free free fits]
  · rw [startOperation_of_excess free excess, abort_phase]

/-- Of the host's accesses only a write of CTRL with the START bit moves STATE. -/
theorem start_of_hostAccess_phase_moves {a : HostAccess} {s t : State} (h : hostAccess a s = .next t)
    (moved : t.phase ≠ s.phase) : ∃ v, a = .writeReg 0x00 4 v ∧ v.getLsbD 0 = true := by
  by_contra notStart
  have clear : ∀ v, a = .writeReg 0x00 4 v → v.getLsbD 0 = false := fun v hv =>
    Bool.eq_false_iff.mpr fun start => notStart ⟨v, hv, start⟩
  obtain ⟨_, _, _, _, rfl⟩ := hostAccess_changes_only_input clear h
  exact moved rfl

/-- Settles O31, by cases on what one step can do. -/
theorem stateMovesOnlyAsTheLifecycleSays : Obligations.StateMovesOnlyAsTheLifecycleSays := by
  intro s t hstep moved
  cases step_effect hstep with
  | reset ms scheduled heq => exact .inl ⟨ms, scheduled, heq ▸ rfl⟩
  | host a ms scheduled _ =>
    obtain ⟨v, rfl, start⟩ :=
      start_of_hostAccess_phase_moves (s := withMoves ms s) ((step_of_host scheduled).symm.trans hstep) moved
    rw [step_writeCtrl scheduled, exec_decodeCtrl_of_start start] at hstep
    cases hstep
    exact .inr (.inl ⟨ms, v, scheduled, start, startOperation_phase_moves (s := clearReply (withMoves ms s)) moved⟩)
  | core moves effect =>
    rcases effect.phase_moves moved with finished | raised
    · exact .inr (.inr (.inl ⟨moves, effect.busy, finished⟩))
    · exact .inr (.inr (.inr ⟨moves, effect.busy, raised⟩))

/-! ## Register accesses (rules R33, R35, R195, R196) -/

/-- Settles O34: each offset names its register. -/
theorem registerReadsReturnTheRegister : Obligations.RegisterReadsReturnTheRegister := by
  intro s o w ms named scheduled
  rw [step_readReg scheduled]
  rcases named with ⟨rfl, rfl⟩ | ⟨rfl, rfl⟩ | ⟨rfl, rfl⟩ | ⟨rfl, rfl⟩ <;> rfl

theorem hostWriteReg_inLen (n : Word) (s : State) : hostWriteReg 0x08 4 n s = .next (hostWriteInLen n s) := rfl

theorem hostWriteInLen_of_busy {s : State} (busy : s.phase = .busy) (n : Word) : hostWriteInLen n s = s :=
  if_pos busy

theorem hostWriteInLen_of_free {s : State} (free : s.phase ≠ .busy) (n : Word) :
    hostWriteInLen n s = { s with inLen := n } :=
  if_neg free

/-- Settles O36: of the registers that a write names, IN_LEN alone stores, and only outside BUSY. -/
theorem registerWritesStoreOnlyInLen : Obligations.RegisterWritesStoreOnlyInLen := by
  refine ⟨fun s o v ms scheduled => ?_, fun s ms scheduled => step_readReg scheduled⟩
  rw [step_writeReg scheduled]
  refine ⟨?_, ?_, ?_⟩
  · rintro (rfl | rfl | rfl) <;> rfl
  · rintro rfl busy
    rw [hostWriteReg_inLen, hostWriteInLen_of_busy (s := clearReply (withMoves ms s)) busy]
  · rintro rfl free
    rw [hostWriteReg_inLen, hostWriteInLen_of_free (s := clearReply (withMoves ms s)) free]

/-! ## Accesses to IN (rules R51, R197) -/

/-- IN after a write of one byte. -/
theorem inByte_write (s : State) (a : Nat) (v : Byte) (b : Nat) :
    inByte { s with inBuf := Memory.write .input s.inBuf a v } b = if b = a then v else inByte s b := by
  simp only [inByte, Memory.read_write_input]
  split <;> rfl

theorem hostWriteIn_of_ignored {a : Nat} {s : State} (ignored : s.phase = .busy ∨ s.cfg.inCap ≤ a) (v : Byte) :
    hostWriteIn a v s = s := by
  refine if_neg fun ⟨free, inside⟩ => ?_
  exact ignored.elim free (Nat.not_le_of_lt inside)

theorem hostWriteIn_of_stored {a : Nat} {s : State} (free : s.phase ≠ .busy) (inside : a < s.cfg.inCap) (v : Byte) :
    hostWriteIn a v s = { s with inBuf := Memory.write .input s.inBuf a v } :=
  if_pos ⟨free, inside⟩

theorem hostInByte_of_inside {a : Nat} {s : State} (inside : a < s.cfg.inCap) : hostInByte s a = inByte s a :=
  if_pos inside

theorem hostInByte_of_beyond {a : Nat} {s : State} (beyond : s.cfg.inCap ≤ a) : hostInByte s a = 0x00#8 :=
  if_neg (Nat.not_lt_of_le beyond)

theorem step_writeIn {s : State} {a : Nat} {v : Byte} {ms : List Move} (h : s.schedule = .host (.writeIn a v) :: ms) :
    step s = .next (hostWriteIn a v (clearReply (withMoves ms s))) :=
  step_of_host h

theorem step_readIn {s : State} {a : Nat} {ms : List Move} (h : s.schedule = .host (.readIn a) :: ms) :
    step s = .next (withReply (.readIn a) ((hostInByte s a).setWidth 32) (withMoves ms s)) :=
  step_of_host h

/-- Settles O37: writes by whether they are stored, reads by whether the index lies below IN_CAP. -/
theorem hostAccessesToIn : Obligations.HostAccessesToIn := by
  refine ⟨fun s a v ms scheduled => ?_, fun s a ms scheduled => ?_⟩
  · rw [step_writeIn scheduled]
    refine ⟨fun ignored => ?_, fun free inside => ?_⟩
    · rw [hostWriteIn_of_ignored (s := clearReply (withMoves ms s)) ignored]
    · have written := inByte_write (clearReply (withMoves ms s)) a v
      rw [hostWriteIn_of_stored (s := clearReply (withMoves ms s)) free inside]
      exact ⟨_, rfl, (written a).trans (if_pos rfl), fun b other => (written b).trans (if_neg other), rfl⟩
  · rw [step_readIn scheduled]
    refine ⟨fun inside => ?_, fun beyond => ?_⟩
    · rw [hostInByte_of_inside inside]
    · rw [hostInByte_of_beyond beyond]
      rfl

/-! ## Accesses to OUT (rules R52, R198) -/

theorem definedOutByte_of_beyond {a : Nat} {s : State} (beyond : s.cfg.outCap ≤ a) :
    definedOutByte s a = some 0x00#8 :=
  if_pos beyond

/-- While DONE, below OUT_LEN, the byte is the operation's result. -/
theorem definedOutByte_of_done {a : Nat} {s : State} (done : s.phase = .done) (result : a < s.outLen.toNat)
    (inside : a < s.cfg.outCap) : definedOutByte s a = outByte s a := by
  rw [definedOutByte, if_neg (Nat.not_le_of_lt inside), if_pos ⟨done, result⟩]

/-- A read of OUT answers with a byte, or, repeated at once, leaves the answer that stands. -/
theorem hostReadOut_cases (a : Nat) (s : State) :
    (∃ (x : Byte) (d : Nat), hostReadOut a s = withReply (.readOut a) (x.setWidth 32) { s with outDraws := d }) ∨
    (hostReadOut a s = s ∧ repeatsRead a s = true) := by
  unfold hostReadOut
  split
  · exact .inl ⟨_, s.outDraws, rfl⟩
  · split
    · exact .inr ⟨rfl, ‹_›⟩
    · exact .inl ⟨_, _, rfl⟩

theorem step_readOut {s : State} {a : Nat} {ms : List Move} (h : s.schedule = .host (.readOut a) :: ms) :
    step s = .next (hostReadOut a (withMoves ms s)) :=
  step_of_host h

/-- Settles O38: rule R52 names the byte of the first two reads; every read answers with a byte or with the answer that
stands. -/
theorem hostAccessesToOut : Obligations.HostAccessesToOut := by
  refine ⟨fun s a ms scheduled => ?_, fun s a v ms scheduled => step_of_host scheduled⟩
  rw [step_readOut scheduled]
  refine ⟨fun beyond => ?_, fun b done result inside held => ?_, ?_⟩
  · rw [hostReadOut_of_definedOutByte (s := withMoves ms s) (definedOutByte_of_beyond beyond)]
    rfl
  · have defined : definedOutByte (withMoves ms s) a = some b :=
      (definedOutByte_of_done (s := withMoves ms s) done result inside).trans held
    rw [hostReadOut_of_definedOutByte defined]
  · rcases hostReadOut_cases a (withMoves ms s) with ⟨x, d, heq⟩ | ⟨heq, repeated⟩ <;> rw [heq]
    · exact ⟨_, x, rfl, .inl rfl, rfl⟩
    · exact ⟨_, 0x00#8, rfl, .inr ⟨rfl, reply_of_repeatsRead repeated⟩, rfl⟩

end Sys2Proof.Machine

/-! # Errors: the cause that a token's step reports, and what an abort leaves (60_exceptions.md) -/

namespace Sys2Proof.Machine

@[simp] theorem pushAll_ecode (vs : List Byte) (s : State) : (pushAll vs s).ecode = s.ecode := by rw [pushAll_eq]

@[simp] theorem putAll_ecode (vs : List Byte) (s : State) : (putAll vs s).ecode = s.ecode := by rw [putAll_eq]

theorem ErrCode.one_le_code (e : ErrCode) : 1 ≤ e.code.toNat :=
  Nat.pos_of_ne_zero fun zero => e.code_ne_zero (BitVec.eq_of_toNat_eq zero)

/-! ## The first cause of a token (rule R217) -/

/-- A token's step from s answers t as its code says: it aborts at the token's first byte with a code that is not 0, and
goes on with 0. -/
structure Reports (code : Nat) (s t : State) : Prop where
  raises : code ≠ 0 → AbortedWith code s.ipos s t
  goesOn : code = 0 → t.phase = s.phase ∧ t.ecode = s.ecode

theorem reports_of_abortedWith {code : Nat} {s t : State} (raised : code ≠ 0)
    (aborted : AbortedWith code s.ipos s t) : Reports code s t :=
  ⟨fun _ => aborted, fun none => absurd none raised⟩

theorem reports_abort (e : ErrCode) (s : State) : Reports e.code.toNat s (abort e s.ipos s) :=
  reports_of_abortedWith (Nat.ne_of_gt e.one_le_code) (abortedWith_abort e s.ipos s)

theorem reports_zero {s t : State} (phase : t.phase = s.phase) (ecode : t.ecode = s.ecode) : Reports 0 s t :=
  ⟨fun raised => absurd rfl raised, fun _ => ⟨phase, ecode⟩⟩

/-- One check: the code and the step both take their first branch when the cause applies. -/
theorem Reports.check {cause test : Prop} [Decidable cause] [Decidable test] {a b : Nat} {s t u : State}
    (same : cause ↔ test) (applies : Reports a s t) (passes : ¬ cause → Reports b s u) :
    Reports (if cause then a else b) s (if test then t else u) := by
  by_cases h : cause
  · rwa [if_pos h, if_pos (same.mp h)]
  · rw [if_neg h, if_neg (mt same.mpr h)]
    exact passes h

/-- The causes of a LIT, in the order of rule R217. -/
def litErrorCode (s : State) : Nat :=
  if s.inLen.toNat < s.ipos.toNat + 2 then 2
  else if s.cfg.outCap < s.ocnt.toNat + 1 then 7
  else 0

/-- The causes of a MATCH, in the order of rule R217. -/
def matchErrorCode (off : BitVec 16) (len : Byte) (s : State) : Nat :=
  if s.inLen.toNat < s.ipos.toNat + 4 then 3
  else if off.toNat = 0 then 4
  else if W < off.toNat then 6
  else if s.hfill.toNat < off.toNat then 5
  else if s.cfg.outCap < s.ocnt.toNat + len.toNat then 7
  else 0

theorem tokenErrorCode_of_badDisc {s : State} (bad : 2 ≤ (inByte s s.ipos.toNat).toNat) : tokenErrorCode s = 1 :=
  if_pos bad

theorem tokenErrorCode_of_lit {s : State} (lit : inByte s s.ipos.toNat = 0x00#8) :
    tokenErrorCode s = litErrorCode s := by
  simp [tokenErrorCode, litErrorCode, lit]

theorem tokenErrorCode_of_matchTok {s : State} (matchTok : inByte s s.ipos.toNat = 0x01#8) :
    tokenErrorCode s = matchErrorCode
      (assembleOffset (inByte s (s.ipos.toNat + 1)) (inByte s (s.ipos.toNat + 2))) (inByte s (s.ipos.toNat + 3)) s := by
  simp [tokenErrorCode, matchErrorCode, assembleOffset_toNat, matchTok]

/-- LIT makes its checks in the order of rule R217. -/
theorem litExec_reports (v : Byte) (s : State) : Reports (litErrorCode s) s (litExec v s) :=
  .check .rfl (reports_abort .formatTruncLit s) fun _ =>
  .check (outFull_iff 1 s).symm (reports_abort .capacityOut s) fun _ =>
  reports_zero (by simp) (by simp)

/-- MATCH makes its checks in the order of rule R217. -/
theorem matchExec_reports (off : BitVec 16) (len : Byte) (s : State) :
    Reports (matchErrorCode off len s) s (matchExec off len s) :=
  .check .rfl (reports_abort .formatTruncMatch s) fun _ =>
  .check .rfl (reports_abort .rangeOffZero s) fun nonzero =>
  .check .rfl (reports_abort .rangeOffBeyondWindow s) fun window =>
  .check .rfl (reports_abort .rangeOffUnwritten s) fun _ =>
  .check (outFull_iff len.toNat s).symm (reports_abort .capacityOut s) fun _ => by
    rw [matchCopy_eq _ (Nat.pos_of_ne_zero nonzero) (Nat.le_of_not_lt window)]
    exact reports_zero (by simp) (by simp)

section

variable {s : State} (moves : coreMoves s) (busy : s.phase = .busy) (op : s.op = .decode)
  (inside : s.ipos.toNat < s.inLen.toNat)
include moves busy op inside

/-- A LIT is reported alike whether the fetch or its execution finds the cause (log 9). -/
theorem step_reports_lit (lit : inByte s s.ipos.toNat = 0x00#8) :
    ∃ t, step s = .next t ∧ Reports (litErrorCode s) (atCoreStep s) t := by
  rcases Nat.lt_or_ge s.inLen.toNat (s.ipos.toNat + 2) with short | whole
  · obtain ⟨_, truncated, _⟩ := malformedTokensRaiseFormatErrors s moves busy op inside
    obtain ⟨t, hstep, aborted⟩ := truncated lit short
    rw [litErrorCode, if_pos short]
    exact ⟨t, hstep, reports_of_abortedWith (by decide) aborted⟩
  · refine ⟨_, ?_, litExec_reports (inByte s (s.ipos.toNat + 1)) (atCoreStep s)⟩
    rw [step_eq_exec_decoded moves busy op (decodeToken_lit _ []) whole ?_]
    · exact exec_lit_of_decode (s := atCoreStep s) busy op _
    · rintro (_ | _ | _) h
      exacts [lit, rfl, absurd h (by simp)]

/-- A MATCH is reported alike whether the fetch or its execution finds the cause (log 9). -/
theorem step_reports_matchTok (matchTok : inByte s s.ipos.toNat = 0x01#8) :
    ∃ t, step s = .next t ∧ Reports (matchErrorCode
      (assembleOffset (inByte s (s.ipos.toNat + 1)) (inByte s (s.ipos.toNat + 2))) (inByte s (s.ipos.toNat + 3)) s)
      (atCoreStep s) t := by
  rcases Nat.lt_or_ge s.inLen.toNat (s.ipos.toNat + 4) with short | whole
  · obtain ⟨_, _, truncated⟩ := malformedTokensRaiseFormatErrors s moves busy op inside
    obtain ⟨t, hstep, aborted⟩ := truncated matchTok short
    rw [matchErrorCode, if_pos short]
    exact ⟨t, hstep, reports_of_abortedWith (by decide) aborted⟩
  · refine ⟨_, ?_, matchExec_reports _ _ (atCoreStep s)⟩
    rw [step_eq_exec_decoded moves busy op (decodeToken_matchTok _ _ _ []) whole ?_]
    · exact exec_matchTok_of_decode (s := atCoreStep s) busy op _ _
    · rintro (_ | _ | _ | _ | _) h
      exacts [matchTok, rfl, rfl, rfl, absurd h (by simp)]

/-- The step at a token of DECODE reports the token's first cause, by the token's first byte. -/
theorem step_reports_tokenErrorCode : ∃ t, step s = .next t ∧ Reports (tokenErrorCode s) (atCoreStep s) t := by
  obtain bad | lit | matchTok : 2 ≤ (inByte s s.ipos.toNat).toNat ∨ inByte s s.ipos.toNat = 0x00#8 ∨
      inByte s s.ipos.toNat = 0x01#8 := by bv_omega
  · obtain ⟨badDisc, _, _⟩ := malformedTokensRaiseFormatErrors s moves busy op inside
    obtain ⟨t, hstep, aborted⟩ := badDisc bad
    rw [tokenErrorCode_of_badDisc bad]
    exact ⟨t, hstep, reports_of_abortedWith (by decide) aborted⟩
  · rw [tokenErrorCode_of_lit lit]
    exact step_reports_lit moves busy op inside lit
  · rw [tokenErrorCode_of_matchTok matchTok]
    exact step_reports_matchTok moves busy op inside matchTok

end

/-- Settles O9: the step reports the token's first cause, and START checks the input's length before any token. -/
theorem firstCauseOfATokenIsReported : Obligations.FirstCauseOfATokenIsReported := by
  refine ⟨fun s _ moves busy op inside => ?_, fun s i start free excess => ?_⟩
  · obtain ⟨t, hstep, report⟩ := step_reports_tokenErrorCode moves busy op inside
    exact ⟨t, hstep, report.raises, fun passes => (report.goesOn passes).imp_left (·.trans busy)⟩
  · have raised (op : Op) : (startOperation op s).phase = .error ∧ (startOperation op s).ecode.toNat = 8 := by
      rw [startOperation_of_excess free excess]
      exact ⟨rfl, rfl⟩
    obtain ⟨r, rfl | rfl⟩ := start
    · exact ⟨_, rfl, raised .encode⟩
    · exact ⟨_, rfl, raised .decode⟩

/-! ## What an abort leaves (rule R215) -/

/-- Only START raises CAPACITY_IN; every other code is one of 1..7 (rule R211). -/
theorem ErrCode.code_le_seven {e : ErrCode} (notStart : e ≠ .capacityIn) : e.code.toNat ≤ 7 := by
  cases e with
  | capacityIn => exact absurd rfl notStart
  | _ => decide

/-- Of the core's effects only the abort ends in ERROR. -/
theorem CoreEffect.abortedWith_of_error {s t : State} (e : CoreEffect s t) (failed : t.phase = .error) :
    s.ipos.toNat < s.inLen.toNat ∧ ∃ code, 1 ≤ code ∧ code ≤ 7 ∧ AbortedWith code s.ipos s t := by
  cases e with
  | finished _ _ heq => subst heq; cases failed
  | aborted code _ inside notStart _ heq =>
    exact ⟨inside, _, code.one_le_code, code.code_le_seven notStart, heq ▸ abortedWith_abort code s.ipos s⟩
  | emitted _ _ busy _ _ _ _ _ _ heq => simp [heq, busy] at failed
  | executed _ _ busy _ _ _ _ heq => simp [heq, busy] at failed

/-- Settles O27, by cases on what the core's step can do. -/
theorem abortLeavesTheDatapath : Obligations.AbortLeavesTheDatapath := by
  intro s t moves hstep failed
  rw [step_of_coreMoves moves] at hstep
  have effect := coreStep_effect hstep
  exact ⟨effect.busy, effect.abortedWith_of_error failed⟩

end Sys2Proof.Machine

/-! # Reset and hazards: whole operations from START to their end, hardware reset, and the order of one copy iteration
(70_reset_and_hazards.md) -/

namespace Sys2Proof.Machine

/-! ## The core's step and its runs -/

/-- Whatever the core does, it does at IN_LEN or before it (rule R23). -/
theorem CoreEffect.atEnd_or_inside {s t : State} (e : CoreEffect s t) :
    s.ipos = s.inLen ∨ s.ipos.toNat < s.inLen.toNat := by
  cases e with
  | finished _ atEnd _ => exact .inl atEnd
  | aborted _ _ inside _ _ _ => exact .inr inside
  | emitted _ _ _ inside _ _ _ _ _ _ => exact .inr inside
  | executed _ n _ inside _ used _ _ => exact .inr (by omega)

/-- The length of a chosen MATCH never passes the lookahead (rule R129). -/
theorem selectToken_within_lookahead (s : State) :
    selectToken s = .lit (lookahead s 0) ∨
    ∃ off len, selectToken s = .matchTok off len ∧ len.toNat ≤ laLen s := by
  rcases Nat.lt_or_ge (findMatch s).2 3 with short | long
  · exact .inl (selectToken_of_short short)
  · exact .inr ⟨_, _, if_pos long, (Nat.mod_le _ _).trans (scan_le s _)⟩

/-- A core that runs alone goes on alone. -/
theorem schedule_of_step {s t : State} (alone : s.schedule = []) (h : step s = .next t) : t.schedule = [] := by
  rw [step_of_coreMoves (coreMoves_of_alone alone), atCoreStep_of_nil alone] at h
  exact (sameSetting_of_coreEffect (coreStep_effect h)).schedule.trans alone

theorem exists_step_of_core_run_succ {s t : State} {k : Nat} (h : Sys2Proof.core.run (k + 1) s = .next t) :
    ∃ m, step s = .next m ∧ Sys2Proof.core.run k m = .next t := by
  cases hstep : step s with
  | next m => exact ⟨m, rfl, (core_run_succ hstep k).symm.trans h⟩
  | fault r =>
    have hcore : Sys2Proof.core.step s = .fault r := hstep
    simp [Host.Core.run, hcore] at h
  | refused r =>
    have hcore : Sys2Proof.core.step s = .refused r := hstep
    simp [Host.Core.run, hcore] at h

/-! ## An operation depends on its input alone (rules R146, R169, R242)

After START two machines differ at most in the bytes of IN from IN_LEN on, in the bytes of OUT from OCNT on, in IN_CAP,
and in the model's own fields. No operation of a core step reads these, so they stay the only differences. -/

/-- Two states of one operation on the same input: they agree on all that the operation reads or has produced. -/
structure SameOperation (s u : State) : Prop where
  rest : u = { s with
    cfg := u.cfg, inBuf := u.inBuf, outBuf := u.outBuf, resetCount := u.resetCount, outDraws := u.outDraws,
    reply := u.reply }
  outCap : u.cfg.outCap = s.cfg.outCap
  inBytes : ∀ a < s.inLen.toNat, inByte u a = inByte s a
  outBytes : ∀ a < s.ocnt.toNat, outByte u a = outByte s a

namespace SameOperation

variable {s u : State}

protected theorem phase (h : SameOperation s u) : u.phase = s.phase := by rw [h.rest]
protected theorem op (h : SameOperation s u) : u.op = s.op := by rw [h.rest]
protected theorem ipos (h : SameOperation s u) : u.ipos = s.ipos := by rw [h.rest]
protected theorem inLen (h : SameOperation s u) : u.inLen = s.inLen := by rw [h.rest]
protected theorem ocnt (h : SameOperation s u) : u.ocnt = s.ocnt := by rw [h.rest]
protected theorem hfill (h : SameOperation s u) : u.hfill = s.hfill := by rw [h.rest]
protected theorem schedule (h : SameOperation s u) : u.schedule = s.schedule := by rw [h.rest]
protected theorem backRead (h : SameOperation s u) : backRead u = backRead s := by rw [h.rest]; rfl
protected theorem laLen (h : SameOperation s u) : laLen u = laLen s := by rw [h.rest]; rfl

protected theorem outFull (h : SameOperation s u) (n : Nat) : outFull n u = outFull n s := by
  rw [outFull, outFull, h.outCap, h.ocnt]

/-- What the host sees of the two operations is the same (rule R202). -/
theorem sameProgress (h : SameOperation s u) : SameProgress s u where
  status := by rw [h.rest]; exact { SameStatus.refl s with }
  ipos := h.ipos
  ocnt := h.ocnt
  outBytes := h.outBytes

/-! ### The named updates -/

protected theorem clearReply (h : SameOperation s u) : SameOperation (clearReply s) (clearReply u) :=
  { h with rest := by rw [h.rest]; rfl }

protected theorem advance (h : SameOperation s u) (n : Nat) : SameOperation (advance n s) (advance n u) :=
  { h with rest := by rw [h.rest]; rfl }

protected theorem abort (h : SameOperation s u) (e : ErrCode) (pos : Word) :
    SameOperation (abort e pos s) (abort e pos u) :=
  { h with rest := by rw [h.rest]; rfl }

protected theorem finish (h : SameOperation s u) : SameOperation (finish s) (finish u) :=
  { h with rest := by rw [h.rest]; rfl }

protected theorem histPush (h : SameOperation s u) (v : Byte) : SameOperation (histPush v s) (histPush v u) :=
  { h with rest := by rw [h.rest]; rfl }

/-- The one byte of OUT that comes below OCNT is the one written. -/
protected theorem putOut (h : SameOperation s u) (v : Byte) : SameOperation (putOut v s) (putOut v u) where
  rest := by rw [h.rest]; rfl
  outCap := h.outCap
  inBytes := h.inBytes
  outBytes := by
    intro a below
    rw [outByte_putOut, outByte_putOut, h.ocnt]
    split
    · rfl
    · refine h.outBytes a ?_
      have one : (1 : BitVec 32).toNat = 1 := rfl
      rw [putOut_ocnt, BitVec.toNat_add, one] at below
      omega

protected theorem pushAll (h : SameOperation s u) (vs : List Byte) : SameOperation (pushAll vs s) (pushAll vs u) := by
  induction vs generalizing s u with
  | nil => exact h
  | cons v vs ih => exact ih (h.histPush v)

protected theorem putAll (h : SameOperation s u) (vs : List Byte) : SameOperation (putAll vs s) (putAll vs u) := by
  induction vs generalizing s u with
  | nil => exact h
  | cons v vs ih => exact ih (h.putOut v)

/-! ### The detector and the fetch, which read IN inside IN_LEN alone -/

protected theorem lookahead (h : SameOperation s u) {k : Nat} (inside : k < laLen s) :
    lookahead u k = lookahead s k := by
  have left := (laLen_le s).2
  rw [Machine.lookahead, Machine.lookahead, h.ipos, h.inBytes _ (by omega)]

protected theorem refByte (h : SameOperation s u) (off : Nat) {k : Nat} (inside : k < laLen s) :
    refByte u off k = refByte s off k := by
  by_cases window : k < off
  · rw [refByte_eq_backRead u off k window, refByte_eq_backRead s off k window, h.backRead]
  · rw [Machine.refByte, Machine.refByte, if_neg window, if_neg window, h.lookahead (by omega)]

protected theorem runFrom (h : SameOperation s u) (off : Nat) {fuel k : Nat} (inside : k + fuel ≤ laLen s) :
    runFrom u off fuel k = runFrom s off fuel k := by
  induction fuel generalizing k with
  | zero => rfl
  | succ fuel ih =>
    rw [Machine.runFrom, Machine.runFrom, h.lookahead (by omega), h.refByte off (by omega), ih (by omega)]

protected theorem scan (h : SameOperation s u) (n : Nat) : scan u n = scan s n := by
  induction n with
  | zero => rfl
  | succ n ih =>
    have run : runLength u (n + 1) = runLength s (n + 1) := by
      rw [runLength, runLength, h.laLen, h.runFrom _ (by omega)]
    rw [Machine.scan, Machine.scan, ih, run]

protected theorem selectToken (h : SameOperation s u) (inside : s.ipos.toNat < s.inLen.toNat) :
    selectToken u = selectToken s := by
  have found : findMatch u = findMatch s := by rw [findMatch, findMatch, h.hfill, h.scan]
  have next : 0 < laLen s := Nat.lt_min.mpr ⟨by decide, Nat.sub_pos_of_lt inside⟩
  rw [Machine.selectToken, Machine.selectToken, found, h.lookahead next]

protected theorem fetchBytes (h : SameOperation s u) : fetchBytes u = fetchBytes s := by
  rw [Machine.fetchBytes, Machine.fetchBytes, h.inLen, h.ipos]
  refine List.map_congr_left fun k hk => h.inBytes _ ?_
  have fetched := List.mem_range.mp hk
  omega

/-! ### The tokens -/

protected theorem emitLit (h : SameOperation s u) (b : Byte) : SameOperation (emitLit b s) (emitLit b u) := by
  unfold Machine.emitLit
  rw [h.outFull, h.ipos]
  split
  · exact h.abort _ _
  · exact ((h.putAll _).histPush b).advance 1

/-- The pushed bytes are lookahead bytes, if the length lies within the lookahead. -/
protected theorem emitMatch (h : SameOperation s u) (off : BitVec 16) {len : Byte} (short : len.toNat ≤ laLen s) :
    SameOperation (emitMatch off len s) (emitMatch off len u) := by
  have pushed : (List.range len.toNat).map (lookahead u) = (List.range len.toNat).map (lookahead s) :=
    List.map_congr_left fun k hk => h.lookahead (Nat.lt_of_lt_of_le (List.mem_range.mp hk) short)
  unfold Machine.emitMatch
  rw [h.outFull, h.ipos, pushed]
  split
  · exact h.abort _ _
  · exact ((h.putAll _).pushAll _).advance _

protected theorem litExec (h : SameOperation s u) (v : Byte) : SameOperation (litExec v s) (litExec v u) := by
  unfold Machine.litExec
  rw [h.inLen, h.ipos, h.outFull]
  split
  · exact h.abort _ _
  split
  · exact h.abort _ _
  · exact ((h.putOut v).histPush v).advance 2

protected theorem matchCopy (h : SameOperation s u) (off n : Nat) :
    SameOperation (matchCopy off n s) (matchCopy off n u) := by
  induction n generalizing s u with
  | zero => exact h
  | succ n ih =>
    refine ih ?_
    rw [copyByte, copyByte, h.backRead]
    exact (h.putOut _).histPush _

protected theorem matchExec (h : SameOperation s u) (off : BitVec 16) (len : Byte) :
    SameOperation (matchExec off len s) (matchExec off len u) := by
  unfold Machine.matchExec
  rw [h.inLen, h.ipos, h.hfill, h.outFull]
  split
  · exact h.abort _ _
  split
  · exact h.abort _ _
  split
  · exact h.abort _ _
  split
  · exact h.abort _ _
  split
  · exact h.abort _ _
  · exact (h.matchCopy _ _).advance 4

/-! ### The core's step -/

/-- EncodeToken chooses the same token, whose length lies within the lookahead. -/
protected theorem encodeStep (h : SameOperation s u) (busy : s.phase = .busy) (op : s.op = .encode)
    (inside : s.ipos.toNat < s.inLen.toNat) {t : State} (answers : encodeStep s = .next t) :
    ∃ v, encodeStep u = .next v ∧ SameOperation t v := by
  have busy' : u.phase = .busy := h.phase.trans busy
  have op' : u.op = .encode := h.op.trans op
  rw [encodeStep] at answers ⊢
  rw [h.selectToken inside]
  rcases selectToken_within_lookahead s with token | ⟨off, len, token, short⟩ <;> rw [token] at answers ⊢
  · rw [exec_lit_of_encode busy op] at answers
    cases answers
    exact ⟨_, exec_lit_of_encode busy' op' _, h.emitLit _⟩
  · rw [exec_matchTok_of_encode busy op] at answers
    cases answers
    exact ⟨_, exec_matchTok_of_encode busy' op' _ _, h.emitMatch off short⟩

/-- DecodeToken fetches the same bytes, so it runs the same token or takes the same FormatError. -/
protected theorem decodeStep (h : SameOperation s u) (busy : s.phase = .busy) (op : s.op = .decode) {t : State}
    (answers : decodeStep s = .next t) : ∃ v, decodeStep u = .next v ∧ SameOperation t v := by
  have busy' : u.phase = .busy := h.phase.trans busy
  have op' : u.op = .decode := h.op.trans op
  unfold Machine.decodeStep at answers ⊢
  rw [h.fetchBytes]
  split at answers
  case h_1 i after read =>
    obtain ⟨v, rfl, -⟩ | ⟨hi, lo, len, rfl, -⟩ := decodeToken_eq_ok read
    · rw [exec_lit_of_decode busy op] at answers
      cases answers
      exact ⟨_, exec_lit_of_decode busy' op' v, h.litExec v⟩
    · rw [exec_matchTok_of_decode busy op] at answers
      cases answers
      exact ⟨_, exec_matchTok_of_decode busy' op' _ len, h.matchExec _ len⟩
  case h_2 =>
    split at answers
    · cases answers
      exact ⟨_, by rw [h.ipos], h.abort _ _⟩
    · cases answers

protected theorem coreStep (h : SameOperation s u) {t : State} (answers : coreStep s = .next t) :
    ∃ v, coreStep u = .next v ∧ SameOperation t v := by
  have effect := coreStep_effect answers
  have busy := effect.busy
  have busy' : u.phase = .busy := h.phase.trans busy
  rcases effect.atEnd_or_inside with atEnd | inside
  · rw [coreStep_at_end busy atEnd] at answers
    cases answers
    exact ⟨_, coreStep_at_end busy' (by rw [h.ipos, h.inLen, atEnd]), h.finish⟩
  · have inside' : u.ipos.toNat < u.inLen.toNat := by rwa [h.ipos, h.inLen]
    cases op : s.op with
    | encode =>
      rw [coreStep_eq_encodeStep busy op inside] at answers
      rw [coreStep_eq_encodeStep busy' (h.op.trans op) inside']
      exact h.encodeStep busy op inside answers
    | decode =>
      rw [coreStep_eq_decodeStep busy op inside] at answers
      rw [coreStep_eq_decodeStep busy' (h.op.trans op) inside']
      exact h.decodeStep busy op answers

/-! ### The runs of the core alone -/

protected theorem step (h : SameOperation s u) (alone : s.schedule = []) {t : State} (answers : step s = .next t) :
    ∃ v, step u = .next v ∧ SameOperation t v := by
  have alone' : u.schedule = [] := h.schedule.trans alone
  rw [step_of_coreMoves (coreMoves_of_alone alone), atCoreStep_of_nil alone] at answers
  rw [step_of_coreMoves (coreMoves_of_alone alone'), atCoreStep_of_nil alone']
  exact h.clearReply.coreStep answers

protected theorem run (h : SameOperation s u) (alone : s.schedule = []) {k : Nat} {t : State}
    (answers : Sys2Proof.core.run k s = .next t) : ∃ v, Sys2Proof.core.run k u = .next v ∧ SameOperation t v := by
  induction k generalizing s u with
  | zero =>
    cases answers
    exact ⟨u, rfl, h⟩
  | succ k ih =>
    obtain ⟨m, hstep, hrun⟩ := exists_step_of_core_run_succ answers
    obtain ⟨w, hstep', h'⟩ := h.step alone hstep
    obtain ⟨v, hrun', same⟩ := ih h' (schedule_of_step alone hstep) hrun
    exact ⟨v, (core_run_succ hstep' k).trans hrun', same⟩

end SameOperation

/-- START on the same input makes the states the same, whatever else they held: it sets all that the operation reads
besides the input, and no byte of OUT lies below OCNT. -/
theorem sameOperation_startOperation {s t : State} (op : Op) (free : s.phase ≠ .busy) (free' : t.phase ≠ .busy)
    (alone : s.schedule = []) (alone' : t.schedule = []) (outCap : s.cfg.outCap = t.cfg.outCap)
    (inLen : s.inLen = t.inLen) (fits : s.inLen.toNat ≤ s.cfg.inCap) (fits' : t.inLen.toNat ≤ t.cfg.inCap)
    (inBytes : ∀ a < s.inLen.toNat, inByte s a = inByte t a) :
    SameOperation (startOperation op s) (startOperation op t) := by
  rw [startOperation_of_free free fits, startOperation_of_free free' fits']
  exact {
    rest := by simp [clearWindow, inLen, alone, alone']
    outCap := outCap.symm
    inBytes := fun a below => (inBytes a below).symm
    outBytes := by simp }

/-- Settles O48: the two states are the same operation's after START, and every step keeps them so. -/
theorem operationsDependOnTheirInputAlone : Obligations.OperationsDependOnTheirInputAlone := by
  intro s t b c u i r k command _ free free' alone alone' outCap inLen fits fits' inBytes startS startT hrun
  have follows (op : Op) (hb : startOperation op s = b) (hc : startOperation op t = c) :
      ∃ v, Sys2Proof.core.run k c = .next v ∧ SameProgress u v := by
    have same := sameOperation_startOperation op free free' alone alone' outCap inLen fits fits' inBytes
    have moves := (sameSetting_startOperation op s).schedule.trans alone
    rw [hb] at same moves
    rw [hc] at same
    obtain ⟨v, hrun', same'⟩ := same.run moves hrun
    exact ⟨v, hrun', same'.sameProgress⟩
  obtain rfl | rfl := command
  · exact follows .encode (by injection startS) (by injection startT)
  · exact follows .decode (by injection startS) (by injection startT)

/-! ## Every operation ends (rule R244) -/

/-- While BUSY with the invariant the core alone has a step, which ends the operation or leaves it running nearer to
IN_LEN. -/
theorem step_ends_or_advances {s : State} (inv : Inv s) (busy : s.phase = .busy) (alone : s.schedule = []) :
    ∃ t, step s = .next t ∧ ((t.phase = .done ∨ t.phase = .error) ∨
      t.phase = .busy ∧ t.schedule = [] ∧ t.inLen.toNat - t.ipos.toNat < s.inLen.toNat - s.ipos.toNat) := by
  have moves := coreMoves_of_alone alone
  rcases Nat.eq_or_lt_of_le (inv.iposBusy busy) with atEnd | inside
  · obtain ⟨t, hstep, done, -⟩ := finishPublishesTheResult s inv moves busy (BitVec.eq_of_toNat_eq atEnd)
    exact ⟨t, hstep, .inl (.inl done)⟩
  · obtain ⟨t, hstep⟩ := (coreStepsOnlyWhileBusy s moves).2 busy (inv.iposBusy busy)
    refine ⟨t, hstep, ?_⟩
    rcases everyTokenStepAdvances s t inv.cfg moves busy inside hstep with failed | ⟨busy', -, inLen, encode, decode⟩
    · exact .inl (.inr failed)
    · have advanced : s.ipos.toNat < t.ipos.toNat := by
        cases op : s.op with
        | encode => exact (encode op).1
        | decode => have := decode op; omega
      exact .inr ⟨busy', schedule_of_step alone hstep, by rw [inLen]; omega⟩

/-- Settles O45, by induction on the input that is left. -/
theorem everyOperationTerminates : Obligations.EveryOperationTerminates := by
  intro s inv busy alone
  induction hleft : s.inLen.toNat - s.ipos.toNat using Nat.strong_induction_on generalizing s with
  | _ left ih =>
    obtain ⟨t, hstep, ended | ⟨busy', alone', nearer⟩⟩ := step_ends_or_advances inv busy alone
    · exact ⟨1, t, Nat.le_add_left 1 left, core_run_succ hstep 0, ended⟩
    · have inv' := everyStepKeepsTheInvariant s t inv hstep
      obtain ⟨k, u, bound, hrun, ended⟩ := ih _ (hleft ▸ nearer) t inv' busy' alone' rfl
      exact ⟨k + 1, u, by omega, (core_run_succ hstep k).trans hrun, ended⟩

/-! ## The use sequence (rules R83, R243) -/

theorem core_run_add {m : Nat} {s t : State} (h : Sys2Proof.core.run m s = .next t) (n : Nat) :
    Sys2Proof.core.run (m + n) s = Sys2Proof.core.run n t := by
  induction m generalizing s with
  | zero =>
    cases h
    rw [Nat.zero_add]
  | succ m ih =>
    obtain ⟨r, hstep, hrun⟩ := exists_step_of_core_run_succ h
    rw [Nat.add_right_comm, core_run_succ hstep, ih hrun]

/-- A move that prepares an operation, from s to t: the moves ms are left, and the capacities and STATE are as before. -/
structure Prepared (ms : List Move) (s t : State) : Prop where
  cfg : t.cfg = s.cfg
  phase : t.phase = s.phase
  schedule : t.schedule = ms

theorem Prepared.trans {ms ms' : List Move} {s t u : State} (h : Prepared ms s t) (h' : Prepared ms' t u) :
    Prepared ms' s u :=
  ⟨h'.cfg.trans h.cfg, h'.phase.trans h.phase, h'.schedule⟩

/-- One byte of LOAD IN (rule R197). -/
theorem step_writeIn_stores {s : State} {a : Nat} {v : Byte} {ms : List Move}
    (scheduled : s.schedule = .host (.writeIn a v) :: ms) (free : s.phase ≠ .busy) (inside : a < s.cfg.inCap) :
    ∃ t, step s = .next t ∧ Prepared ms s t ∧ inByte t a = v ∧ ∀ b, b ≠ a → inByte t b = inByte s b := by
  have written := inByte_write (clearReply (withMoves ms s)) a v
  rw [step_writeIn scheduled, hostWriteIn_of_stored (s := clearReply (withMoves ms s)) free inside]
  exact ⟨_, rfl, ⟨rfl, rfl, rfl⟩, (written a).trans (if_pos rfl), fun b other => (written b).trans (if_neg other)⟩

/-- The host's writes of bytes to IN from an index on. -/
def loadMoves (bs : List Byte) (a : Nat) : List Move := bs.mapIdx fun k b => .host (.writeIn (k + a) b)

theorem loadMoves_cons (b : Byte) (bs : List Byte) (a : Nat) :
    loadMoves (b :: bs) a = .host (.writeIn a b) :: loadMoves bs (a + 1) := by
  simp [loadMoves, Nat.add_right_comm, Nat.add_assoc]

theorem useSequence_eq (input : List Byte) (v : Word) :
    useSequence input v = loadMoves input 0 ++
      [.host (.writeReg 0x08 4 (BitVec.ofNat 32 input.length)), .host (.writeReg 0x00 4 v)] := rfl

/-- LOAD IN stores the bytes one after another, one step each, and no byte below its first index. -/
theorem run_loadMoves (bs : List Byte) {a : Nat} {s : State} {ms : List Move}
    (scheduled : s.schedule = loadMoves bs a ++ ms) (free : s.phase ≠ .busy) (fits : a + bs.length ≤ s.cfg.inCap) :
    ∃ t, Sys2Proof.core.run bs.length s = .next t ∧ Prepared ms s t ∧
      (∀ (k : Nat) (h : k < bs.length), inByte t (a + k) = bs[k]) ∧ ∀ k < a, inByte t k = inByte s k := by
  induction bs generalizing a s with
  | nil => exact ⟨s, rfl, ⟨rfl, rfl, scheduled⟩, by simp, fun _ _ => rfl⟩
  | cons b bs ih =>
    rw [List.length_cons] at fits
    rw [loadMoves_cons] at scheduled
    obtain ⟨u, hstep, first, stored, others⟩ := step_writeIn_stores scheduled free (by omega)
    obtain ⟨t, hrun, later, written, kept⟩ :=
      ih first.schedule (by rw [first.phase]; exact free) (by rw [first.cfg]; omega)
    refine ⟨t, (core_run_succ hstep _).trans hrun, first.trans later, fun k hk => ?_, fun k hk => ?_⟩
    · cases k with
      | zero => exact (kept a (Nat.lt_add_one a)).trans stored
      | succ k =>
        have next : a + (k + 1) = a + 1 + k := by omega
        rw [next]
        exact written k (Nat.lt_of_succ_lt_succ hk)
    · rw [kept k (Nat.lt_succ_of_lt hk), others k (Nat.ne_of_lt hk)]

/-- WRITE IN_LEN (rule R195). -/
theorem step_writeInLen_stores {s : State} {n : Word} {ms : List Move}
    (scheduled : s.schedule = .host (.writeReg 0x08 4 n) :: ms) (free : s.phase ≠ .busy) :
    ∃ t, step s = .next t ∧ Prepared ms s t ∧ t.inLen = n ∧ ∀ a, inByte t a = inByte s a := by
  rw [step_writeReg scheduled, hostWriteReg_inLen, hostWriteInLen_of_free (s := clearReply (withMoves ms s)) free]
  exact ⟨_, rfl, ⟨rfl, rfl, rfl⟩, rfl, fun _ => rfl⟩

/-- A CTRL write with the START bit begins the operation that bit 1 names, on the input as it stands (rule R191). -/
theorem step_writeCtrl_starts {s : State} {v : Word} {ms : List Move}
    (scheduled : s.schedule = .host (.writeReg 0x00 4 v) :: ms) (start : v.getLsbD 0 = true)
    (free : s.phase ≠ .busy) (fits : s.inLen.toNat ≤ s.cfg.inCap) :
    ∃ t, step s = .next t ∧ t.phase = .busy ∧ t.op = (if v.getLsbD 1 then Op.decode else Op.encode) ∧ t.ipos = 0 ∧
      t.ocnt = 0 ∧ t.schedule = ms ∧ t.inLen = s.inLen ∧ ∀ a, inByte t a = inByte s a := by
  rw [step_writeCtrl scheduled, exec_decodeCtrl_of_start start,
    startOperation_of_free (s := clearReply (withMoves ms s)) free fits]
  exact ⟨_, rfl, rfl, rfl, rfl, rfl, rfl, rfl, fun _ => rfl⟩

/-- Settles O40: the byte writes load IN, and START begins on what IN_LEN covers. -/
theorem useSequenceStartsTheOperation : Obligations.UseSequenceStartsTheOperation := by
  intro c input v cfg fits start
  have free : (State.resetWith c).phase ≠ .busy := by simp [State.resetWith]
  have length : (BitVec.ofNat 32 input.length).toNat = input.length :=
    Nat.mod_eq_of_lt (Nat.lt_of_le_of_lt fits cfg.2.1)
  obtain ⟨l, loads, loaded, written, -⟩ := run_loadMoves input
    (s := { State.resetWith c with schedule := useSequence input v }) (useSequence_eq input v) free
    (by rw [Nat.zero_add]; exact fits)
  obtain ⟨p, hlength, prepared, inLen, sameBytes⟩ :=
    step_writeInLen_stores loaded.schedule (by rw [loaded.phase]; exact free)
  have ready := loaded.trans prepared
  obtain ⟨t, hstart, phase, op, ipos, ocnt, schedule, sameLen, sameBytes'⟩ :=
    step_writeCtrl_starts ready.schedule start (by rw [ready.phase]; exact free)
      (by rw [inLen, length, ready.cfg]; exact fits)
  refine ⟨t, ?_, phase, op, ipos, ocnt, schedule, by rw [sameLen, inLen, length], fun a h => ?_⟩
  · rw [core_run_add loads 2, core_run_succ hlength, core_run_succ hstart]
    rfl
  · rw [sameBytes', sameBytes, ← written a h, Nat.zero_add]

/-! ## Hardware reset (rules R240, R241) -/

theorem step_reset {s : State} {ms : List Move} (h : s.schedule = .reset :: ms) :
    step s = .next (hardwareReset (withMoves ms s)) := by
  simp [step, h]

theorem statusWord_eq_zero {s : State} (phase : s.phase = .idle) (op : s.op = .encode) (ecode : s.ecode = 0) :
    statusWord s = 0 := by
  rw [statusWord, phase, op, ecode]
  decide

/-- Settles O41: the step is hardware reset, whose values are its fields. -/
theorem hardwareResetValues : Obligations.HardwareResetValues := by
  refine ⟨fun s ms scheduled => ⟨_, step_reset scheduled, ?_⟩, ?_⟩
  · exact ⟨rfl, rfl, rfl, rfl, rfl, rfl, rfl, rfl, rfl, rfl, statusWord_eq_zero rfl rfl rfl, rfl⟩
  · exact ⟨rfl, statusWord_eq_zero rfl rfl rfl, rfl, rfl, rfl, rfl, rfl, rfl, rfl⟩

/-! ## One iteration of the copy (rule R245) -/

/-- OUT after one iteration: the byte read before the push, at OCNT. -/
theorem outByte_copyByte (off : Nat) (s : State) (a : Nat) :
    outByte (copyByte off s) a = if a = s.ocnt.toNat then some (backRead s off) else outByte s a := by
  rw [copyByte, outByte_histPush, outByte_putOut]

/-- HIST after one iteration: the byte read before the push, at BPOS. -/
theorem histRead_copyByte (off : Nat) (s : State) (i : BitVec 12) :
    histRead (copyByte off s) i = if i = s.bpos then backRead s off else histRead s i := by
  rw [copyByte, histRead_histPush, putOut_bpos, histRead_putOut]

/-- At the full window distance the entry read is the one at the cursor. -/
theorem backRead_W (s : State) : backRead s W = histRead s s.bpos := by
  have full : BitVec.ofNat 12 W = 0#12 := rfl
  rw [backRead, backIndex, full, BitVec.sub_zero]

/-- Settles O23, by the equations of one iteration. -/
theorem copyReadsBeforeItPushes : Obligations.CopyReadsBeforeItPushes := by
  intro off s _ _
  refine ⟨(outByte_copyByte off s _).trans (if_pos rfl), (histRead_copyByte off s _).trans (if_pos rfl), ?_⟩
  rintro rfl
  rw [outByte_copyByte, if_pos rfl, backRead_W]
  refine ⟨rfl, fun i => ?_⟩
  rw [histRead_copyByte, backRead_W]
  split
  · rw [‹i = s.bpos›]
  · rfl

end Sys2Proof.Machine

/-! # The invariants after hardware reset (rule R240)

Inv there is inv_resetWith; what is left is Lockstep, and that State.reset has legal capacities. -/

namespace Sys2Proof.Machine

/-- Hardware reset leaves the window clear (DESIGN CHOICE, log 6), and no operation has pushed anything yet. -/
theorem lockstep_resetWith (c : Config) : Lockstep (State.resetWith c) := lockstep_of_clear rfl rfl rfl rfl

/-- The capacities of State.reset (DESIGN CHOICE, log 1) lie in the range of rule R7. -/
theorem wf_largest : Config.largest.wf := by decide

/-- Settles O42, by inv_resetWith and lockstep_resetWith: State.reset is the case of the largest capacities. -/
theorem resetMeetsTheInvariants : Obligations.ResetMeetsTheInvariants :=
  have meets (c : Config) (legal : c.wf) : Inv (State.resetWith c) ∧ Lockstep (State.resetWith c) :=
    ⟨inv_resetWith legal, lockstep_resetWith c⟩
  ⟨meets, meets Config.largest wf_largest⟩

end Sys2Proof.Machine
